-- ==== Sys2Proof/Word.lean ====
section
/-! DEFINITION. The machine word and the widths of the instruction fields (spec/00_scope.md R5, spec/30_encoding.md R51). -/

namespace Sys2Proof

/-- A word: registers, the program counter, addresses, instructions and memory cells are all 32 bits (R5, R9). -/
abbrev Word := BitVec 32

/-- A register index field `rs`, `rt` or `rd`: 5 bits, so 0 to 31 and nothing else (R10, R51). -/
abbrev RegIdx := BitVec 5

/-- The shift-amount field, 0 to 31 (R51, R62). -/
abbrev Shamt := BitVec 5

/-- The immediate field as it stands in the word (R51, R53). -/
abbrev Imm16 := BitVec 16

/-- The jump target field as it stands in the word (R51, R54). -/
abbrev Target26 := BitVec 26

end Sys2Proof
end

