-- ==== Sys2Proof/Config.lean ====
section
/-! DEFINITION. The configuration of a core (spec/00_scope.md R6, R7, R8): what is fixed for the life of the core. -/

namespace Sys2Proof

/-- How ANDI and ORI extend their immediate: parameter `LOGIMM_EXT` of R8 (decision D4). -/
inductive LogImmExt where
  /-- The decided value: the sign-extended immediate. -/
  | sign
  /-- The named alternative: the zero-extended immediate. -/
  | zero
  deriving DecidableEq, Repr

/-- The parameters a core is built with. Sizes and base are byte-address counts (R6).
`FETCH_OUTSIDE` of R8 is no field: only its decided value has rules (log 8). -/
structure Config where
  /-- `IBASE`, the base of the instruction region. -/
  ibase : Nat
  /-- `ISIZE`, the size of the instruction region. -/
  isize : Nat
  /-- `DSIZE`, the size of the data region. -/
  dsize : Nat
  /-- `LOGIMM_EXT` (D4; log 9). -/
  logImmExt : LogImmExt
  /-- `REG0_HARDWIRED` (D5; log 10). -/
  reg0Hardwired : Bool
  /-- `SEED_SP` (D12; log 11). -/
  seedSp : Bool
  deriving DecidableEq, Repr

/-- `DBASE = IBASE + ISIZE` (R6). -/
def Config.dbase (c : Config) : Nat := c.ibase + c.isize

/-- `MEMEND = IBASE + ISIZE + DSIZE` (R6). -/
def Config.memend (c : Config) : Nat := c.ibase + c.isize + c.dsize

/-- The constraints of R6: word-multiple base and sizes, no empty region, and `MEMEND < 2^32`. -/
abbrev Config.WF (c : Config) : Prop :=
  c.ibase % 4 = 0 ∧ c.isize % 4 = 0 ∧ c.dsize % 4 = 0 ∧ 4 ≤ c.isize ∧ 4 ≤ c.dsize ∧ c.memend < 2 ^ 32

/-- The behavioural choices of R8 at their decided values: sign-extended logical immediates, an
ordinary register 0, a seeded register 29. -/
abbrev Config.Decided (c : Config) : Prop :=
  c.logImmExt = .sign ∧ c.reg0Hardwired = false ∧ c.seedSp = true

/-- `CFG0`, the default configuration of R7, with the decided values of R8.
PRESUMED (log 3): the two sizes are the spec's own, from general knowledge. -/
def Config.cfg0 : Config :=
  { ibase := 0x00400000, isize := 0x00001000, dsize := 0x00003000
    logImmExt := .sign, reg0Hardwired := false, seedSp := true }

end Sys2Proof
end

