-- ==== Sys2Proof/Syntax.lean ====
section
/-! DEFINITION. The instruction set (spec/30_encoding.md R55, R56): one constructor per row of the opcode table. -/

namespace Sys2Proof

/-- The 18 instructions and the halt sentinel. A constructor keeps every field of its format, the
unused ones too, as the decoder does (R67, R70). -/
inductive Instr where
  /-- The zero word (R120). -/
  | halt
  /-- add-unsigned (R81). -/
  | addu (rs rt rd : RegIdx) (shamt : Shamt)
  /-- subtract-unsigned (R82). -/
  | subu (rs rt rd : RegIdx) (shamt : Shamt)
  /-- bitwise-and (R83). -/
  | and (rs rt rd : RegIdx) (shamt : Shamt)
  /-- bitwise-or (R84). -/
  | or (rs rt rd : RegIdx) (shamt : Shamt)
  /-- set-less-than (R85). -/
  | slt (rs rt rd : RegIdx) (shamt : Shamt)
  /-- shift-left-logical (R86). -/
  | sll (rs rt rd : RegIdx) (shamt : Shamt)
  /-- shift-right-logical (R87). -/
  | srl (rs rt rd : RegIdx) (shamt : Shamt)
  /-- jump-register (R115). -/
  | jr (rs rt rd : RegIdx) (shamt : Shamt)
  /-- add-immediate-unsigned (R91). -/
  | addiu (rs rt : RegIdx) (imm16 : Imm16)
  /-- and-immediate (R92). -/
  | andi (rs rt : RegIdx) (imm16 : Imm16)
  /-- or-immediate (R93). -/
  | ori (rs rt : RegIdx) (imm16 : Imm16)
  /-- load-upper-immediate (R94). -/
  | lui (rs rt : RegIdx) (imm16 : Imm16)
  /-- branch-equal (R111). -/
  | beq (rs rt : RegIdx) (imm16 : Imm16)
  /-- branch-not-equal (R112). -/
  | bne (rs rt : RegIdx) (imm16 : Imm16)
  /-- load-word (R102). -/
  | lw (rs rt : RegIdx) (imm16 : Imm16)
  /-- store-word (R103). -/
  | sw (rs rt : RegIdx) (imm16 : Imm16)
  /-- jump (R113). -/
  | j (target26 : Target26)
  /-- jump-and-link (R114). -/
  | jal (target26 : Target26)
  deriving DecidableEq, Repr

end Sys2Proof
end

