-- ==== Sys2Proof/WellFormed.lean ====
section
/-! DEFINITION. Which terms of `Instr` an instruction word can stand for (spec/30_encoding.md R64, R67; spec/40_alu_register.md R86). -/

namespace Sys2Proof

/-- The one check the formats leave open: an SLL whose fields are all 0 would be the zero word, and
that word is HALT, never SLL (R64, R86). Every other bound is in a field's width. -/
def Instr.wellFormed (i : Instr) : Bool :=
  match i with
  | .sll rs rt rd shamt => !(rs == 0 && rt == 0 && rd == 0 && shamt == 0)
  | .halt => true
  | .addu _ _ _ _ => true
  | .subu _ _ _ _ => true
  | .and _ _ _ _ => true
  | .or _ _ _ _ => true
  | .slt _ _ _ _ => true
  | .srl _ _ _ _ => true
  | .jr _ _ _ _ => true
  | .addiu _ _ _ => true
  | .andi _ _ _ => true
  | .ori _ _ _ => true
  | .lui _ _ _ => true
  | .beq _ _ _ => true
  | .bne _ _ _ => true
  | .lw _ _ _ => true
  | .sw _ _ _ => true
  | .j _ => true
  | .jal _ => true

end Sys2Proof
end

