-- ==== Sys2Proof/Decode.lean ====
section
/-! DEFINITION. Decoder and encoder (spec/30_encoding.md R51 to R73).
The opcode and function numbers are the spec's R57 and R58, which it took from general knowledge (log 2, PRESUMED). -/

namespace Sys2Proof

/-! Fields of an instruction word (R51). -/

/-- `op = w[31:26]`. -/
def fieldOp (w : Word) : BitVec 6 := w.extractLsb' 26 6
/-- `rs = w[25:21]`. -/
def fieldRs (w : Word) : RegIdx := w.extractLsb' 21 5
/-- `rt = w[20:16]`. -/
def fieldRt (w : Word) : RegIdx := w.extractLsb' 16 5
/-- `rd = w[15:11]`. -/
def fieldRd (w : Word) : RegIdx := w.extractLsb' 11 5
/-- `shamt = w[10:6]`. -/
def fieldShamt (w : Word) : Shamt := w.extractLsb' 6 5
/-- `funct = w[5:0]`. -/
def fieldFunct (w : Word) : BitVec 6 := w.extractLsb' 0 6
/-- `imm16 = w[15:0]`. -/
def fieldImm16 (w : Word) : Imm16 := w.extractLsb' 0 16
/-- `target26 = w[25:0]`. -/
def fieldTarget26 (w : Word) : Target26 := w.extractLsb' 0 26

/-! Opcode numbers (R57) and function codes (R58). -/

abbrev opRegister : BitVec 6 := 0x00
abbrev opJ : BitVec 6 := 0x02
abbrev opJal : BitVec 6 := 0x03
abbrev opBeq : BitVec 6 := 0x04
abbrev opBne : BitVec 6 := 0x05
abbrev opAddiu : BitVec 6 := 0x09
abbrev opAndi : BitVec 6 := 0x0C
abbrev opOri : BitVec 6 := 0x0D
abbrev opLui : BitVec 6 := 0x0F
abbrev opLw : BitVec 6 := 0x23
abbrev opSw : BitVec 6 := 0x2B

abbrev fnSll : BitVec 6 := 0x00
abbrev fnSrl : BitVec 6 := 0x02
abbrev fnJr : BitVec 6 := 0x08
abbrev fnAddu : BitVec 6 := 0x21
abbrev fnSubu : BitVec 6 := 0x23
abbrev fnAnd : BitVec 6 := 0x24
abbrev fnOr : BitVec 6 := 0x25
abbrev fnSlt : BitVec 6 := 0x2A

/-- Why a word is no instruction. -/
inductive DecodeReject where
  /-- The opcode is not in the table of R57 (R65). -/
  | unrecognisedOpcode (op : BitVec 6)
  /-- The opcode is 0, the word is not zero, and the function code is not in the table of R58 (R66, D6; log 13). -/
  | unrecognisedFunct (funct : BitVec 6)
  deriving DecidableEq, Repr

/-- The register format, `op = 0`: the function code selects the operation (R52, R58). -/
def decodeRegister (w : Word) : Except DecodeReject Instr :=
  let fn := fieldFunct w
  if fn = fnSll then .ok (.sll (fieldRs w) (fieldRt w) (fieldRd w) (fieldShamt w))
  else if fn = fnSrl then .ok (.srl (fieldRs w) (fieldRt w) (fieldRd w) (fieldShamt w))
  else if fn = fnJr then .ok (.jr (fieldRs w) (fieldRt w) (fieldRd w) (fieldShamt w))
  else if fn = fnAddu then .ok (.addu (fieldRs w) (fieldRt w) (fieldRd w) (fieldShamt w))
  else if fn = fnSubu then .ok (.subu (fieldRs w) (fieldRt w) (fieldRd w) (fieldShamt w))
  else if fn = fnAnd then .ok (.and (fieldRs w) (fieldRt w) (fieldRd w) (fieldShamt w))
  else if fn = fnOr then .ok (.or (fieldRs w) (fieldRt w) (fieldRd w) (fieldShamt w))
  else if fn = fnSlt then .ok (.slt (fieldRs w) (fieldRt w) (fieldRd w) (fieldShamt w))
  else .error (.unrecognisedFunct fn)

/-- A word that is not zero: the opcode selects the format and the operation (R57, R68). -/
def decodeNonzero (w : Word) : Except DecodeReject Instr :=
  let op := fieldOp w
  if op = opRegister then decodeRegister w
  else if op = opJ then .ok (.j (fieldTarget26 w))
  else if op = opJal then .ok (.jal (fieldTarget26 w))
  else if op = opBeq then .ok (.beq (fieldRs w) (fieldRt w) (fieldImm16 w))
  else if op = opBne then .ok (.bne (fieldRs w) (fieldRt w) (fieldImm16 w))
  else if op = opAddiu then .ok (.addiu (fieldRs w) (fieldRt w) (fieldImm16 w))
  else if op = opAndi then .ok (.andi (fieldRs w) (fieldRt w) (fieldImm16 w))
  else if op = opOri then .ok (.ori (fieldRs w) (fieldRt w) (fieldImm16 w))
  else if op = opLui then .ok (.lui (fieldRs w) (fieldRt w) (fieldImm16 w))
  else if op = opLw then .ok (.lw (fieldRs w) (fieldRt w) (fieldImm16 w))
  else if op = opSw then .ok (.sw (fieldRs w) (fieldRt w) (fieldImm16 w))
  else .error (.unrecognisedOpcode op)

/-- The decoder: total on the 2^32 words, the zero word tested before any field (R64, R68). -/
def decode (w : Word) : Except DecodeReject Instr :=
  if w = 0 then .ok .halt else decodeNonzero w

/-! Encoder: the three formats (R52, R53, R54), high field first. -/

/-- `op || rs || rt || rd || shamt || funct` (R52). -/
def registerWord (rs rt rd : RegIdx) (shamt : Shamt) (funct : BitVec 6) : Word :=
  opRegister ++ rs ++ rt ++ rd ++ shamt ++ funct

/-- `op || rs || rt || imm16` (R53). -/
def immediateWord (op : BitVec 6) (rs rt : RegIdx) (imm16 : Imm16) : Word := op ++ rs ++ rt ++ imm16

/-- `op || target26` (R54). -/
def jumpWord (op : BitVec 6) (target26 : Target26) : Word := op ++ target26

/-- The word of an instruction (R52 to R58, R70). -/
def encode (i : Instr) : Word :=
  match i with
  | .halt => 0
  | .addu rs rt rd shamt => registerWord rs rt rd shamt fnAddu
  | .subu rs rt rd shamt => registerWord rs rt rd shamt fnSubu
  | .and rs rt rd shamt => registerWord rs rt rd shamt fnAnd
  | .or rs rt rd shamt => registerWord rs rt rd shamt fnOr
  | .slt rs rt rd shamt => registerWord rs rt rd shamt fnSlt
  | .sll rs rt rd shamt => registerWord rs rt rd shamt fnSll
  | .srl rs rt rd shamt => registerWord rs rt rd shamt fnSrl
  | .jr rs rt rd shamt => registerWord rs rt rd shamt fnJr
  | .addiu rs rt imm16 => immediateWord opAddiu rs rt imm16
  | .andi rs rt imm16 => immediateWord opAndi rs rt imm16
  | .ori rs rt imm16 => immediateWord opOri rs rt imm16
  | .lui rs rt imm16 => immediateWord opLui rs rt imm16
  | .beq rs rt imm16 => immediateWord opBeq rs rt imm16
  | .bne rs rt imm16 => immediateWord opBne rs rt imm16
  | .lw rs rt imm16 => immediateWord opLw rs rt imm16
  | .sw rs rt imm16 => immediateWord opSw rs rt imm16
  | .j target26 => jumpWord opJ target26
  | .jal target26 => jumpWord opJal target26

/-- The instruction the decoder reads from an opcode-table word of `nbits` bits: one 32-bit word, the
bits from `nbits` up being 0. No instruction is longer than one word (R50). -/
def decodeTableWord (nbits w : Nat) : Option Instr :=
  if nbits ≤ 32 then (decode (BitVec.ofNat 32 (w % 2 ^ nbits))).toOption else none

/-! The machine-readable opcode table (R73), transcribed on its own so that the decoder can be held against it. -/

/-- The 19 mnemonics of the table. -/
inductive Mnemonic where
  | HALT | ADDU | SUBU | AND | OR | SLT | SLL | SRL | JR
  | ADDIU | ANDI | ORI | LUI | BEQ | BNE | LW | SW | J | JAL
  deriving DecidableEq, Repr

/-- A row: a word `w` selects it when `w & mask = pattern` (R73; the table's key is "match"). -/
structure OpcodeRow where
  mnemonic : Mnemonic
  pattern : Word
  mask : Word
  deriving DecidableEq, Repr

/-- The rows of spec/opcode_table.json, HALT first because it has priority 0 (R73). -/
def opcodeTable : List OpcodeRow :=
  [⟨.HALT, 0x00000000, 0xFFFFFFFF⟩, ⟨.ADDU, 0x00000021, 0xFC00003F⟩, ⟨.SUBU, 0x00000023, 0xFC00003F⟩,
   ⟨.AND, 0x00000024, 0xFC00003F⟩, ⟨.OR, 0x00000025, 0xFC00003F⟩, ⟨.SLT, 0x0000002A, 0xFC00003F⟩,
   ⟨.SLL, 0x00000000, 0xFC00003F⟩, ⟨.SRL, 0x00000002, 0xFC00003F⟩, ⟨.JR, 0x00000008, 0xFC00003F⟩,
   ⟨.ADDIU, 0x24000000, 0xFC000000⟩, ⟨.ANDI, 0x30000000, 0xFC000000⟩, ⟨.ORI, 0x34000000, 0xFC000000⟩,
   ⟨.LUI, 0x3C000000, 0xFC000000⟩, ⟨.BEQ, 0x10000000, 0xFC000000⟩, ⟨.BNE, 0x14000000, 0xFC000000⟩,
   ⟨.LW, 0x8C000000, 0xFC000000⟩, ⟨.SW, 0xAC000000, 0xFC000000⟩, ⟨.J, 0x08000000, 0xFC000000⟩,
   ⟨.JAL, 0x0C000000, 0xFC000000⟩]

/-- Whether a word selects a row. -/
def OpcodeRow.selects (r : OpcodeRow) (w : Word) : Bool := w &&& r.mask == r.pattern

/-- The row a word selects, in the order of the table; `none` when the word is illegal (R73). -/
def selectRow (w : Word) : Option OpcodeRow := opcodeTable.find? (·.selects w)

/-- The mnemonic an instruction has in the table. -/
def Instr.mnemonic (i : Instr) : Mnemonic :=
  match i with
  | .halt => .HALT
  | .addu _ _ _ _ => .ADDU
  | .subu _ _ _ _ => .SUBU
  | .and _ _ _ _ => .AND
  | .or _ _ _ _ => .OR
  | .slt _ _ _ _ => .SLT
  | .sll _ _ _ _ => .SLL
  | .srl _ _ _ _ => .SRL
  | .jr _ _ _ _ => .JR
  | .addiu _ _ _ => .ADDIU
  | .andi _ _ _ => .ANDI
  | .ori _ _ _ => .ORI
  | .lui _ _ _ => .LUI
  | .beq _ _ _ => .BEQ
  | .bne _ _ _ => .BNE
  | .lw _ _ _ => .LW
  | .sw _ _ _ => .SW
  | .j _ => .J
  | .jal _ => .JAL

end Sys2Proof
end

