-- ==== Sys2Proof/Machine/State.lean ====
section
/-! DEFINITION. The state of the core (spec/10_state.md R10 to R25) as plain data, its reasons to stop, and reset. -/

namespace Sys2Proof.Machine

/-- The four causes of a halt (spec/60_exceptions.md R150). -/
inductive Cause where
  | zeroWord
  | illegalInstruction
  | memoryAccess
  | fetchFault
  deriving DecidableEq, Repr

/-- The latched `halt` record (R18, R155). Each cause carries exactly the fields R155 writes for it, so
a field that a cause does not define is not there (U6; log 6). -/
inductive HaltRecord where
  /-- The normal end: the fetched word was zero (R151). Its `halt_word` is 0. -/
  | zeroWord (haltPc : Word)
  /-- The fetched word is no instruction (R152). -/
  | illegalInstruction (haltPc haltWord : Word)
  /-- LW or SW with an invalid effective address (R153). -/
  | memoryAccess (haltPc haltAddr : Word)
  /-- The pc was misaligned or outside the instruction region (R154). -/
  | fetchFault (haltPc : Word)
  deriving DecidableEq, Repr

/-- The run status (R18). -/
inductive Status where
  | running
  | halted
  deriving DecidableEq, Repr

/-- What the driver is told of a completed step (spec/49_instruction_cycle.md R142). -/
structure Report where
  changedReg : Option RegIdx
  changedMem : Option Word
  newPc : Word
  deriving DecidableEq, Repr

/-- A stored word and its byte address (R22, R31). -/
abbrev MemCell := Nat × Word

/-- The memory image: the words that differ from `unlistedWord`, addresses strictly rising (log 1: held
as words, since R39 says a model must not split a word into bytes inside the core). -/
abbrev Memory := List MemCell

/-- What an address that is not listed reads as: memory words are zero after reset (R25). -/
abbrev unlistedWord : Word := 0

/-- The canonical form of a memory: addresses strictly rising, no entry equal to what an unlisted
address reads as. -/
abbrev Memory.wf (m : Memory) : Prop :=
  m.Pairwise (fun c d => c.1 < d.1) ∧ ∀ c ∈ m, c.2 ≠ unlistedWord

/-- The whole state: the tuple of R24, the configuration the step takes as a parameter (R23; log 3),
and the report of the last completed step (R142; log 7). -/
structure State where
  /-- Fixed for the life of the core; no step changes it. -/
  cfg : Config
  /-- `x[0]` to `x[31]` (R10). -/
  regs : Vector Word 32
  /-- The program counter (R15). -/
  pc : Word
  /-- The memory image (R22). -/
  mem : Memory
  /-- Running or Halted (R18). -/
  status : Status
  /-- The latched halt record, `none` while there is no valid cause (R18, R25). -/
  halt : Option HaltRecord
  /-- The report of the last completed step, `none` before the first one (R142). -/
  report : Option Report
  deriving DecidableEq, Repr

/-- Why a step stops the model. No instruction raises one: every fatal condition of the spec is the
halting step of R155, which is a next state. -/
inductive Fault where
  /-- Raised by `step` alone, on a state whose configuration breaks the constraints of R6: the spec
  gives such a core no meaning. Safe: the model stops (log 4). -/
  | configurationOutsideRules
  deriving DecidableEq, Repr

/-- Why the model gives no meaning. -/
inductive Refusal where
  /-- An instruction without a meaning in the model. Raised by no arm: every row has its meaning. Safe. -/
  | notModelled (mnemonic : String)
  deriving DecidableEq, Repr

/-- The state after reset of a core built with a configuration (R25, R180): `pc = IBASE` (D11; log 12),
`x[29] = MEMEND` when seeded (D12; log 11), every other register and every memory word zero, Running,
no halt record, and no report yet (log 7). -/
def State.resetWith (c : Config) : State :=
  { cfg := c
    regs := (Vector.replicate 32 (0 : Word)).set 29 (if c.seedSp then BitVec.ofNat 32 c.memend else 0)
    pc := BitVec.ofNat 32 c.ibase
    mem := []
    status := .running
    halt := none
    report := none }

/-- The machine right after reset, in the default configuration `CFG0` (R7; log 3). -/
def State.reset : State := State.resetWith Config.cfg0

end Sys2Proof.Machine
end

