-- ==== Sys2Proof/Machine/Ops.lean ====
section
/-! DEFINITION. The named operations over registers, memory and the run status
(spec/10_state.md, spec/20_memory.md, spec/49_instruction_cycle.md R136 to R139, spec/60_exceptions.md R155). -/

namespace Sys2Proof.Machine

/-! Registers. -/

/-- `x[i]` (R9, R10). -/
def State.readReg (s : State) (i : RegIdx) : Word :=
  s.regs[i.toNat]'(by have := i.isLt; omega)

/-- Whether a write to register `i` is discarded: only index 0, and only under the alternative
`REG0_HARDWIRED = true` (R139, D5; log 10). -/
def Config.discards (c : Config) (i : RegIdx) : Bool := c.reg0Hardwired && i == 0

/-- `x[i] <- v` (R9, R12, R139). -/
def State.writeReg (s : State) (i : RegIdx) (v : Word) : State :=
  if Config.discards s.cfg i then s
  else { s with regs := s.regs.set i.toNat v (by have := i.isLt; omega) }

/-- The link register, index 31 (R5, R11). -/
def linkRegister : RegIdx := 31

/-! Memory. -/

/-- The word at a byte address, `unlistedWord` where nothing is listed (R36). -/
def Memory.read (m : Memory) (a : Nat) : Word :=
  match m with
  | [] => unlistedWord
  | c :: rest => if c.1 = a then c.2 else Memory.read rest a

/-- Put a cell before the first cell with a higher address. -/
def Memory.insertCell (m : Memory) (a : Nat) (v : Word) : Memory :=
  match m with
  | [] => [(a, v)]
  | c :: rest => if a < c.1 then (a, v) :: c :: rest else c :: Memory.insertCell rest a v

/-- Replace the word at a byte address and change no other word (R37), keeping the canonical form. -/
def Memory.write (m : Memory) (a : Nat) (v : Word) : Memory :=
  let others := m.filter (fun c => c.1 != a)
  if v = unlistedWord then others else Memory.insertCell others a v

/-- Every listed address is word-aligned and inside the image `[IBASE, MEMEND)` (R22, R30, R31). -/
abbrev Memory.InImage (c : Config) (m : Memory) : Prop :=
  ∀ e ∈ m, e.1 % 4 = 0 ∧ c.ibase ≤ e.1 ∧ e.1 < c.memend

/-- A fetch address is valid: word-aligned and in the instruction region `[IBASE, IBASE + ISIZE)`,
compared unsigned (R34; D8, D2; logs 8, 14). -/
abbrev fetchValid (c : Config) (a : Word) : Prop :=
  a.toNat % 4 = 0 ∧ c.ibase ≤ a.toNat ∧ a.toNat < c.dbase

/-- A data address is valid: word-aligned and in the data region `[DBASE, MEMEND)`, compared unsigned
(R35; D2; log 14). -/
abbrev dataValid (c : Config) (a : Word) : Prop :=
  a.toNat % 4 = 0 ∧ c.dbase ≤ a.toNat ∧ a.toNat < c.memend

/-- `MemRead(addr, 4)` (R36). -/
def State.memRead (s : State) (a : Word) : Word := s.mem.read a.toNat

/-- `MemWrite(addr, 4, v)` (R37). -/
def State.memWrite (s : State) (a v : Word) : State := { s with mem := s.mem.write a.toNat v }

/-! The end of a step. -/

/-- `pc0 + 4`, modulo 2^32 (R136, D16; log 14). -/
def State.pcPlus4 (s : State) : Word := s.pc + 4

/-- The end of a step that completes: `pc <- npc` and the report to the driver (R140, R142). -/
def State.complete (s : State) (changedReg : Option RegIdx) (changedMem : Option Word) (npc : Word) : State :=
  { s with pc := npc, report := some ⟨changedReg, changedMem, npc⟩ }

/-- Write-back of a result to a destination register, then the end of the step; the index is reported
whether or not the value changes (R139). -/
def State.writeBack (s : State) (dest : RegIdx) (val npc : Word) : State :=
  (s.writeReg dest val).complete (some dest) none npc

/-- What a halting step does, exactly this and nothing else (R155): `status <- Halted` and the halt
record is latched; registers, memory and pc keep their values. This is the one way an exceptional
condition of the core is taken. There is no return from it: only reset leaves Halted (R157, R180). -/
def State.enterHalt (s : State) (r : HaltRecord) : State :=
  { s with status := .halted, halt := some r }

/-- The memory-access stage's check (R100, R137): commit when the effective address is valid, otherwise
raise `MemoryAccessException(ea, pc0)` and commit nothing (R138, D9). -/
def State.accessData (s : State) (ea : Word) (committed : State) : State :=
  if dataValid s.cfg ea then committed else s.enterHalt (.memoryAccess s.pc ea)

/-! The halt record read field by field (R18), and the cause codes (R158). -/

/-- `halt.cause`. -/
def HaltRecord.cause (h : HaltRecord) : Cause :=
  match h with
  | .zeroWord _ => .zeroWord
  | .illegalInstruction _ _ => .illegalInstruction
  | .memoryAccess _ _ => .memoryAccess
  | .fetchFault _ => .fetchFault

/-- `halt.halt_pc`. -/
def HaltRecord.haltPc (h : HaltRecord) : Word :=
  match h with
  | .zeroWord pc => pc
  | .illegalInstruction pc _ => pc
  | .memoryAccess pc _ => pc
  | .fetchFault pc => pc

/-- `halt.halt_word`, for the causes that define it (always 0 for `ZeroWord`, R142). -/
def HaltRecord.haltWord (h : HaltRecord) : Option Word :=
  match h with
  | .zeroWord _ => some 0
  | .illegalInstruction _ w => some w
  | .memoryAccess _ _ => none
  | .fetchFault _ => none

/-- `halt.halt_addr`, for the cause that defines it. -/
def HaltRecord.haltAddr (h : HaltRecord) : Option Word :=
  match h with
  | .zeroWord _ => none
  | .illegalInstruction _ _ => none
  | .memoryAccess _ a => some a
  | .fetchFault _ => none

/-- The three-bit code of a cause, 0 for none (R158, D13). -/
def causeCode (c : Option Cause) : BitVec 3 :=
  match c with
  | none => 0
  | some .zeroWord => 1
  | some .illegalInstruction => 2
  | some .memoryAccess => 3
  | some .fetchFault => 4

end Sys2Proof.Machine
end

