-- ==== Sys2Proof/Machine/Operands.lean ====
section
/-! DEFINITION. Operand forms (spec/30_encoding.md R59 to R63; spec/41_alu_immediate.md R92, R93). -/

namespace Sys2Proof.Machine

/-- `sext_32` (R9). -/
def sext32 (v : Imm16) : Word := v.signExtend 32

/-- `zext_32` (R9). -/
def zext32 (v : Imm16) : Word := v.zeroExtend 32

/-- The immediate every I-format instruction uses: sign-extended (R59, D4). -/
def immediate (imm16 : Imm16) : Word := sext32 imm16

/-- The immediate of ANDI and ORI under the policy `LOGIMM_EXT` (R92, R93, D4; log 9). -/
def logicalImmediate (c : Config) (imm16 : Imm16) : Word :=
  match c.logImmExt with
  | .sign => immediate imm16
  | .zero => zext32 imm16

/-- The jump target: bits 31..28 of the jump's own address, then the field, then `00` (R60). -/
def jumpTarget (pc0 : Word) (target26 : Target26) : Word :=
  (pc0 &&& 0xF0000000) ||| ((target26.zeroExtend 32) <<< 2)

/-- The pre-shifted branch offset `imm << 2` (R61). -/
def branchOffset (imm16 : Imm16) : Word := immediate imm16 <<< 2

/-- `pc0 + 4` plus the executor's offset (R61, R111, R136). -/
def branchTarget (pc0 offset : Word) : Word := (pc0 + 4) + offset

/-- The effective address of LW and SW, base register plus displacement, the only addressing mode (R63,
R100, R101). -/
def State.effectiveAddress (s : State) (rs : RegIdx) (imm16 : Imm16) : Word :=
  s.readReg rs + immediate imm16

/-- `v << n` by the shift-amount field (R9, R62). -/
def shiftLeft (v : Word) (shamt : Shamt) : Word := v <<< shamt.toNat

/-- `v >>u n` by the shift-amount field: zero fill (R9, R62, R87). -/
def shiftRight (v : Word) (shamt : Shamt) : Word := v >>> shamt.toNat

end Sys2Proof.Machine
end

