-- ==== Sys2Proof/Machine/AluImmediate.lean ====
section
/-! DEFINITION. ADDIU, ANDI, ORI, LUI (spec/41_alu_immediate.md R90 to R94). -/

namespace Sys2Proof.Machine

/-- The frame the four instructions share (R90): write-back to `rt`, `npc = pc0 + 4`. -/
def aluImmediate (rt : RegIdx) (val : Word) (s : State) : Host.Outcome State Fault Refusal :=
  .next (s.writeBack rt val s.pcPlus4)

/-- ADDIU (R91). -/
def execAddiu (rs rt : RegIdx) (imm16 : Imm16) (s : State) : Host.Outcome State Fault Refusal :=
  aluImmediate rt (s.readReg rs + immediate imm16) s

/-- ANDI (R92). -/
def execAndi (rs rt : RegIdx) (imm16 : Imm16) (s : State) : Host.Outcome State Fault Refusal :=
  aluImmediate rt (s.readReg rs &&& logicalImmediate s.cfg imm16) s

/-- ORI (R93). -/
def execOri (rs rt : RegIdx) (imm16 : Imm16) (s : State) : Host.Outcome State Fault Refusal :=
  aluImmediate rt (s.readReg rs ||| logicalImmediate s.cfg imm16) s

/-- LUI (R94); `rs` is ignored, and so is the extension policy. -/
def execLui (rt : RegIdx) (imm16 : Imm16) (s : State) : Host.Outcome State Fault Refusal :=
  aluImmediate rt (immediate imm16 <<< 16) s

end Sys2Proof.Machine
end

