-- ==== Sys2Proof/Machine/Flags.lean ====
section
/-! DEFINITION. The core has no flags, condition codes or predicate registers (spec/10_state.md R20).
What stands here are the two conditions an instruction computes for itself and stores nowhere. -/

namespace Sys2Proof.Machine

/-- The difference SLT, BEQ and BNE test: `vs - vt` modulo 2^32 (R85, R111, R112). -/
def difference (vs vt : Word) : Word := vs - vt

/-- The branch condition: subtraction equal to zero (R111). -/
def differenceIsZero (vs vt : Word) : Bool := difference vs vt == 0

/-- The SLT condition: bit 31 of the wrapped difference, not a true signed comparison (R85; spec/90_conflicts.md C5). -/
def differenceIsNegative (vs vt : Word) : Bool := (difference vs vt).getLsbD 31

end Sys2Proof.Machine
end

