-- ==== Sys2Proof/Machine/AluRegister.lean ====
section
/-! DEFINITION. ADDU, SUBU, AND, OR, SLT, SLL, SRL (spec/40_alu_register.md R80 to R87). -/

namespace Sys2Proof.Machine

/-- The frame the seven instructions share (R80): write-back to `rd`, `npc = pc0 + 4`. -/
def aluRegister (rd : RegIdx) (val : Word) (s : State) : Host.Outcome State Fault Refusal :=
  .next (s.writeBack rd val s.pcPlus4)

/-- ADDU (R81). -/
def execAddu (rs rt rd : RegIdx) (s : State) : Host.Outcome State Fault Refusal :=
  aluRegister rd (s.readReg rs + s.readReg rt) s

/-- SUBU (R82). -/
def execSubu (rs rt rd : RegIdx) (s : State) : Host.Outcome State Fault Refusal :=
  aluRegister rd (s.readReg rs - s.readReg rt) s

/-- AND (R83). -/
def execAnd (rs rt rd : RegIdx) (s : State) : Host.Outcome State Fault Refusal :=
  aluRegister rd (s.readReg rs &&& s.readReg rt) s

/-- OR (R84). -/
def execOr (rs rt rd : RegIdx) (s : State) : Host.Outcome State Fault Refusal :=
  aluRegister rd (s.readReg rs ||| s.readReg rt) s

/-- SLT (R85). -/
def execSlt (rs rt rd : RegIdx) (s : State) : Host.Outcome State Fault Refusal :=
  aluRegister rd (if differenceIsNegative (s.readReg rs) (s.readReg rt) then 1 else 0) s

/-- SLL (R86); the source is `rt`. -/
def execSll (rt rd : RegIdx) (shamt : Shamt) (s : State) : Host.Outcome State Fault Refusal :=
  aluRegister rd (shiftLeft (s.readReg rt) shamt) s

/-- SRL (R87); the source is `rt`. -/
def execSrl (rt rd : RegIdx) (shamt : Shamt) (s : State) : Host.Outcome State Fault Refusal :=
  aluRegister rd (shiftRight (s.readReg rt) shamt) s

end Sys2Proof.Machine
end

