-- ==== Sys2Proof/Machine/ControlTransfer.lean ====
section
/-! DEFINITION. BEQ, BNE, J, JAL, JR (spec/43_control_transfer.md R110 to R117). No target is checked
here: a bad one is accepted into pc and faults at the next fetch (R117). -/

namespace Sys2Proof.Machine

/-- A control transfer that writes no register (R110): only pc and the report change. -/
def transfer (npc : Word) (s : State) : Host.Outcome State Fault Refusal :=
  .next (s.complete none none npc)

/-- A branch: the offset is `imm << 2` when the condition holds, else 0, added to `pc0 + 4` (R111, R112). -/
def branch (taken : Bool) (imm16 : Imm16) (s : State) : Host.Outcome State Fault Refusal :=
  transfer (branchTarget s.pc (if taken then branchOffset imm16 else 0)) s

/-- BEQ (R111). -/
def execBeq (rs rt : RegIdx) (imm16 : Imm16) (s : State) : Host.Outcome State Fault Refusal :=
  branch (differenceIsZero (s.readReg rs) (s.readReg rt)) imm16 s

/-- BNE (R112). -/
def execBne (rs rt : RegIdx) (imm16 : Imm16) (s : State) : Host.Outcome State Fault Refusal :=
  branch (!differenceIsZero (s.readReg rs) (s.readReg rt)) imm16 s

/-- J (R113). -/
def execJ (target26 : Target26) (s : State) : Host.Outcome State Fault Refusal :=
  transfer (jumpTarget s.pc target26) s

/-- JAL (R114): the link value is `pc0 + 4`, there is no delay slot. -/
def execJal (target26 : Target26) (s : State) : Host.Outcome State Fault Refusal :=
  .next (s.writeBack linkRegister s.pcPlus4 (jumpTarget s.pc target26))

/-- JR (R115): pc becomes the register's value, whatever it is. -/
def execJr (rs : RegIdx) (s : State) : Host.Outcome State Fault Refusal :=
  transfer (s.readReg rs) s

end Sys2Proof.Machine
end

