-- ==== Sys2Proof/Machine/HaltSystem.lean ====
section
/-! DEFINITION. HALT, the zero word (spec/44_halt_system.md R120). The core has no other system instruction (R122). -/

namespace Sys2Proof.Machine

/-- HALT (R120, R151): the halting step with cause `ZeroWord`. -/
def execHalt (s : State) : Host.Outcome State Fault Refusal :=
  .next (s.enterHalt (.zeroWord s.pc))

end Sys2Proof.Machine
end

