-- ==== Sys2Proof/Machine/LoadStore.lean ====
section
/-! DEFINITION. LW and SW (spec/42_load_store.md R100 to R104). -/

namespace Sys2Proof.Machine

/-- LW (R102): an invalid address halts with nothing committed, the destination included. -/
def execLw (rs rt : RegIdx) (imm16 : Imm16) (s : State) : Host.Outcome State Fault Refusal :=
  let ea := s.effectiveAddress rs imm16
  .next (s.accessData ea (s.writeBack rt (s.memRead ea) s.pcPlus4))

/-- SW (R103): stores the snapshot of `x[rt]`, reports the changed address and no register. -/
def execSw (rs rt : RegIdx) (imm16 : Imm16) (s : State) : Host.Outcome State Fault Refusal :=
  let ea := s.effectiveAddress rs imm16
  .next (s.accessData ea ((s.memWrite ea (s.readReg rt)).complete none (some ea) s.pcPlus4))

end Sys2Proof.Machine
end

