-- ==== Sys2Proof/Machine/Fetch.lean ====
section
/-! DEFINITION. The Fetch and Decode stages (spec/49_instruction_cycle.md R131 to R133) and the step of a halted core (R144). -/

namespace Sys2Proof.Machine

/-- Fetch (R33, R34, R132): the word at `pc0`, or `FetchFault(pc0)`. -/
def State.fetchWord (s : State) : Except HaltRecord Word :=
  if fetchValid s.cfg s.pc then .ok (s.memRead s.pc) else .error (.fetchFault s.pc)

/-- Fetch then Decode: the instruction at `pc0`, or the record the step halts with. The zero word
decodes to HALT, whose meaning raises `ZeroWord` (R120); a word that is no instruction raises
`IllegalInstruction` here (R121, R152). -/
def State.fetchInstr (s : State) : Except HaltRecord Instr :=
  match s.fetchWord with
  | .error r => .error r
  | .ok w =>
    match decode w with
    | .ok i => .ok i
    | .error _ => .error (.illegalInstruction s.pc w)

/-- A step asked of a halted core: the state is unchanged (R144, D14; log 5). -/
def stepHalted (s : State) : Host.Outcome State Fault Refusal := .next s

/-- `s` with the instruction word `w` of `nbits` bits stored where the next fetch reads, as the loader
would have stored it (R184; log 16). A state whose pc cannot be fetched from is left alone (log 18). -/
def State.placeFetchWord (s : State) (nbits w : Nat) : State :=
  if fetchValid s.cfg s.pc then s.memWrite s.pc (BitVec.ofNat 32 (w % 2 ^ nbits)) else s

end Sys2Proof.Machine
end

