-- ==== Sys2Proof/Machine/Step.lean ====
section
/-! DEFINITION. One step of the core (spec/49_instruction_cycle.md R140, R144). -/

namespace Sys2Proof.Machine

/-- One step: a running core fetches, decodes and executes, or takes the halt that fetch or decode
raised (R140, R156); a halted core does nothing (R144). A configuration outside R6 has no meaning in
the spec (log 4). -/
def step (s : State) : Host.Outcome State Fault Refusal :=
  if s.cfg.WF then
    match s.status with
    | .halted => stepHalted s
    | .running =>
      match s.fetchInstr with
      | .ok i => exec i s
      | .error r => .next (s.enterHalt r)
  else .fault .configurationOutsideRules

/-- The instruction word placed where `step` fetches its next instruction. -/
def State.withFetchWord (s : State) (nbits w : Nat) : State := s.placeFetchWord nbits w

end Sys2Proof.Machine
end

