-- ==== Sys2Proof/Machine/Cycle.lean ====
section
/-! DEFINITION. The instruction cycle stage by stage, transcribed from spec/49_instruction_cycle.md R131 to R140
over the Decoded Instruction of spec/30_encoding.md R55. It is a second account of the step, against which
the per-instruction meanings are held; `step` does not use it. It is also the disassembly tap (R145). -/

namespace Sys2Proof.Machine

/-- The Decoded Instruction (R55): one of three shapes, the register and immediate shapes with the
register snapshot `vs`, `vt`. -/
inductive Decoded where
  | register (rs rt rd : RegIdx) (shamt : Shamt) (funct : BitVec 6) (vs vt : Word)
  | immediate (op : BitVec 6) (rs rt : RegIdx) (imm vs vt : Word)
  | jump (op : BitVec 6) (target : Word)
  deriving DecidableEq, Repr

/-- Decode (R68, R133) of a word fetched at `pc0`, or the record the step halts with. -/
def stageDecode (s : State) (w : Word) : Except HaltRecord Decoded :=
  let op := fieldOp w
  let vs := s.readReg (fieldRs w)
  let vt := s.readReg (fieldRt w)
  if w = 0 then .error (.zeroWord s.pc)
  else if op = 0 then
    if fieldFunct w ∈ [0x00, 0x02, 0x08, 0x21, 0x23, 0x24, 0x25, 0x2A] then
      .ok (.register (fieldRs w) (fieldRt w) (fieldRd w) (fieldShamt w) (fieldFunct w) vs vt)
    else .error (.illegalInstruction s.pc w)
  else if op ∈ [0x09, 0x0C, 0x0D, 0x0F, 0x04, 0x05, 0x23, 0x2B] then
    .ok (.immediate op (fieldRs w) (fieldRt w) (sext32 (fieldImm16 w)) vs vt)
  else if op ∈ [0x02, 0x03] then
    .ok (.jump op ((s.pc &&& 0xF0000000) ||| ((fieldTarget26 w).zeroExtend 32 <<< 2)))
  else .error (.illegalInstruction s.pc w)

/-- The logical immediate taken from the decoded one: itself, or its low 16 bits (R8, R92, R93). -/
def stageLogicalImmediate (c : Config) (imm : Word) : Word :=
  if c.logImmExt = .sign then imm else imm &&& 0x0000FFFF

/-- Execute (R134). J has no result and 0 is taken, which no later stage uses (U7; log 15). -/
def stageExecute (c : Config) (pc0 : Word) (d : Decoded) : Word :=
  match d with
  | .register _ _ _ shamt funct vs vt =>
    if funct = 0x21 then vs + vt
    else if funct = 0x23 then vs - vt
    else if funct = 0x24 then vs &&& vt
    else if funct = 0x25 then vs ||| vt
    else if funct = 0x2A then (if (vs - vt).getLsbD 31 then 1 else 0)
    else if funct = 0x00 then vt <<< shamt
    else if funct = 0x02 then vt >>> shamt
    else vs
  | .immediate op _ _ imm vs vt =>
    if op = 0x09 then vs + imm
    else if op = 0x0C then vs &&& stageLogicalImmediate c imm
    else if op = 0x0D then vs ||| stageLogicalImmediate c imm
    else if op = 0x0F then imm <<< 16
    else if op = 0x04 then (if vs - vt = 0 then imm <<< 2 else 0)
    else if op = 0x05 then (if vs - vt ≠ 0 then imm <<< 2 else 0)
    else vs + imm
  | .jump op _ => if op = 0x03 then pc0 + 4 else 0

/-- PC-Update (R136): the next pc, and the link value for JAL. -/
def stagePcUpdate (pc0 val : Word) (d : Decoded) : Word × Option Word :=
  match d with
  | .register _ _ _ _ funct _ _ => if funct = 0x08 then (val, none) else (pc0 + 4, none)
  | .immediate op _ _ _ _ _ => if op = 0x04 ∨ op = 0x05 then (pc0 + 4 + val, none) else (pc0 + 4, none)
  | .jump op target => if op = 0x03 then (target, some (pc0 + 4)) else (target, none)

/-- The address a load or store accesses (R137); `none` for every other instruction. -/
def stageAddress (val : Word) (d : Decoded) : Option Word :=
  match d with
  | .immediate op _ _ _ _ _ => if op = 0x23 ∨ op = 0x2B then some val else none
  | .register _ _ _ _ _ _ _ => none
  | .jump _ _ => none

/-- The word a store writes and where (R137). -/
def stageStore (val : Word) (d : Decoded) : Option (Word × Word) :=
  match d with
  | .immediate op _ _ _ _ vt => if op = 0x2B then some (val, vt) else none
  | .register _ _ _ _ _ _ _ => none
  | .jump _ _ => none

/-- Write-Back (R139): destination and value, if the instruction defines a destination. -/
def stageWriteBack (s : State) (val : Word) (link : Option Word) (d : Decoded) : Option (RegIdx × Word) :=
  match d with
  | .register _ _ rd _ funct _ _ => if funct = 0x08 then none else some (rd, val)
  | .immediate op _ rt _ _ _ =>
    if op = 0x23 then some (rt, s.memRead val)
    else if op ∈ [0x09, 0x0C, 0x0D, 0x0F] then some (rt, val)
    else none
  | .jump _ _ => link.map (fun v => (31, v))

/-- The commit (R140): at most one store and one register write, then pc and the report. -/
def stageApply (s : State) (store : Option (Word × Word)) (dest : Option (RegIdx × Word)) (npc : Word) : State :=
  let stored := match store with
    | some (a, v) => s.memWrite a v
    | none => s
  let written := match dest with
    | some (i, v) => stored.writeReg i v
    | none => stored
  written.complete (dest.map (·.1)) (store.map (·.1)) npc

/-- Execute, PC-Update, Memory-Access and Write-Back of a decoded instruction (R138, R140): everything is
computed first and applied only when the address check has passed. -/
def stageCommit (s : State) (d : Decoded) : State :=
  let val := stageExecute s.cfg s.pc d
  let update := stagePcUpdate s.pc val d
  let committed := stageApply s (stageStore val d) (stageWriteBack s val update.2 d) update.1
  match stageAddress val d with
  | some a => if dataValid s.cfg a then committed else s.enterHalt (.memoryAccess s.pc a)
  | none => committed

/-- The step of a running core in one piece (R140). -/
def stagedStep (s : State) : State :=
  if fetchValid s.cfg s.pc then
    match stageDecode s (s.memRead s.pc) with
    | .error r => s.enterHalt r
    | .ok d => stageCommit s d
  else s.enterHalt (.fetchFault s.pc)

/-- The disassembly tap (R145): the Decoded Instruction of the step a running core would take now.
It only observes; the text printed from it is outside the block. -/
def disassemblyTap (s : State) : Option Decoded :=
  match s.status with
  | .halted => none
  | .running => if fetchValid s.cfg s.pc then (stageDecode s (s.memRead s.pc)).toOption else none

end Sys2Proof.Machine
end

