-- ==== Sys2Proof/Machine/HostOps.lean ====
section
/-! DEFINITION. What the host does and sees between steps (spec/49_instruction_cycle.md R142 to R146,
spec/70_reset_and_hazards.md R180 to R184). -/

namespace Sys2Proof.Machine

/-- Reset as a host operation, applicable in any state; nothing but the configuration the core was built
with survives it (R180, D15). -/
def State.hostReset (s : State) : State := State.resetWith s.cfg

/-- Store words one after another from a byte address upward, 4 addresses apart (R184). -/
def Memory.storeWords (m : Memory) (a : Nat) (ws : List Word) : Memory :=
  match ws with
  | [] => m
  | w :: rest => Memory.storeWords (m.write a w) (a + 4) rest

/-- The loader (R184): word `k` goes to `IBASE + 4k` and nothing else is written; a program longer than
the instruction region is refused as a whole (U5; log 17). -/
def State.load (s : State) (program : List Word) : Option State :=
  if program.length ≤ s.cfg.isize / 4 then
    some { s with mem := s.mem.storeWords s.cfg.ibase program }
  else none

/-- The launch state: reset, then load (R182). -/
def launch (c : Config) (program : List Word) : Option State := (State.resetWith c).load program

/-- The typed result of a step request (R142). -/
inductive StepOutcome where
  /-- The step completed. -/
  | ok (r : Report)
  /-- The core is halted, with the latched record. -/
  | halted (h : HaltRecord)
  deriving DecidableEq, Repr

/-- What the driver is told after a step, read from the state the step left: the latched record of a
halted core (R144), else the report of the completed step (R142). -/
def State.outcome (s : State) : Option StepOutcome :=
  match s.status with
  | .halted => s.halt.map .halted
  | .running => s.report.map .ok

end Sys2Proof.Machine
end

