-- ==== Sys2Proof/Safety.lean ====
section
/-! DEFINITION. The ends of a run and the invariant of the machine (spec/44_halt_system.md R123,
spec/60_exceptions.md R155, spec/49_instruction_cycle.md R143). -/

namespace Sys2Proof.Machine

/-- The normal end of a run: halted with cause `ZeroWord` (R123). -/
def State.endedNormally (s : State) : Prop := s.status = .halted ∧ ∃ pc, s.halt = some (.zeroWord pc)

/-- The abnormal end of a run, a faulted state and never a final one (R123). -/
def State.faulted (s : State) : Prop :=
  s.status = .halted ∧ ∃ h, s.halt = some h ∧ h.cause ≠ .zeroWord

/-- A halt record tells the truth about the state it stands in: pc is still the address of the halting
instruction, and the cause its record names holds there (R151 to R155). -/
def State.RecordTrue (s : State) (h : HaltRecord) : Prop :=
  match h with
  | .zeroWord pc => pc = s.pc ∧ fetchValid s.cfg s.pc ∧ s.memRead s.pc = 0
  | .illegalInstruction pc w =>
    pc = s.pc ∧ fetchValid s.cfg s.pc ∧ s.memRead s.pc = w ∧ ∃ e, decode w = .error e
  | .memoryAccess pc a =>
    pc = s.pc ∧ fetchValid s.cfg s.pc ∧ ¬ dataValid s.cfg a ∧
      ∃ rs rt imm16, s.effectiveAddress rs imm16 = a ∧
        (decode (s.memRead s.pc) = .ok (.lw rs rt imm16) ∨ decode (s.memRead s.pc) = .ok (.sw rs rt imm16))
  | .fetchFault pc => pc = s.pc ∧ ¬ fetchValid s.cfg s.pc

/-- The run status and the record agree (R18): running has no valid cause, halted has a true one. -/
def State.StatusTrue (s : State) : Prop :=
  match s.status with
  | .running => s.halt = none
  | .halted => ∃ h, s.halt = some h ∧ s.RecordTrue h

/-- The report names the pc of the state and at most one changed thing, and a changed address is a data
address (R142, R143). -/
def State.ReportTrue (s : State) : Prop :=
  ∀ r, s.report = some r →
    r.newPc = s.pc ∧ (r.changedReg = none ∨ r.changedMem = none) ∧
      ∀ a, r.changedMem = some a → dataValid s.cfg a

/-- The invariant of the machine: the configuration obeys R6, the memory is canonical and holds words of
the image only, a hard-wired register 0 reads zero (D5), and status, record and report are true. -/
structure State.Inv (s : State) : Prop where
  configuration : s.cfg.WF
  canonical : Memory.wf s.mem
  inImage : Memory.InImage s.cfg s.mem
  hardwired : s.cfg.reg0Hardwired = true → s.readReg 0 = 0
  status : s.StatusTrue
  report : s.ReportTrue

end Sys2Proof.Machine
end

