-- ==== Sys2Proof/Certificates/Slice0/Obligations.lean ====
section
/-! DEFINITION. The statements for the provers. The spec's formulas are written out here, not through the model's own
operand functions, wherever a statement gives a value. -/

open Sys2Proof Sys2Proof.Machine

/-! What a completed or a halting step leaves: the frames, said once. -/

/-- A completed step that writes one register and nothing else: `val` is in `dest`, or the old value
where the write is discarded (index 0 under `REG0_HARDWIRED = true`, R139); every other register, every
word of memory, the status, the halt record and the configuration are unchanged; pc is `npc`; the report
is `(dest, none, npc)` either way. -/
def Sys2Proof.Claims.WritesRegister (s t : State) (dest : RegIdx) (val npc : Word) : Prop :=
  t.readReg dest = (if s.cfg.reg0Hardwired = true ∧ dest = 0 then s.readReg 0 else val) ∧
  (∀ r, r ≠ dest → t.readReg r = s.readReg r) ∧
  (∀ a, t.mem.read a = s.mem.read a) ∧
  t.pc = npc ∧ t.status = s.status ∧ t.halt = s.halt ∧ t.cfg = s.cfg ∧
  t.report = some ⟨some dest, none, npc⟩

/-- A completed step that changes pc and nothing else; the report is `(none, none, npc)`. -/
def Sys2Proof.Claims.OnlyMovesPc (s t : State) (npc : Word) : Prop :=
  (∀ r, t.readReg r = s.readReg r) ∧
  (∀ a, t.mem.read a = s.mem.read a) ∧
  t.pc = npc ∧ t.status = s.status ∧ t.halt = s.halt ∧ t.cfg = s.cfg ∧
  t.report = some ⟨none, none, npc⟩

/-- A completed step that stores the word `v` at address `a` and nothing else: no register changes,
every other address reads as before, pc advances by 4, the report is `(none, a, pc0 + 4)`. -/
def Sys2Proof.Claims.StoresWord (s t : State) (a v : Word) : Prop :=
  t.mem.read a.toNat = v ∧
  (∀ b : Nat, b ≠ a.toNat → t.mem.read b = s.mem.read b) ∧
  (∀ r, t.readReg r = s.readReg r) ∧
  t.pc = s.pc + 4 ∧ t.status = s.status ∧ t.halt = s.halt ∧ t.cfg = s.cfg ∧
  t.report = some ⟨none, some a, s.pc + 4⟩

/-- A halting step: Halted with the record `h`, and no register, no word of memory, not pc, not the
configuration and not the last report changes. -/
def Sys2Proof.Claims.HaltsWith (s t : State) (h : HaltRecord) : Prop :=
  t.status = .halted ∧ t.halt = some h ∧
  (∀ r, t.readReg r = s.readReg r) ∧
  (∀ a, t.mem.read a = s.mem.read a) ∧
  t.pc = s.pc ∧ t.cfg = s.cfg ∧ t.report = s.report

open Sys2Proof.Claims

/-! ## Register and immediate ALU -/

/-- R80, with the seven values of R81 to R87: each of ADDU, SUBU, AND, OR, SLT, SLL, SRL completes in
every state with its value in `x[rd]`, and that is all it does. The sources are read before the write,
so `rd` may be a source; `shamt` (of the first five) and `rs` (of the shifts) have no effect. -/
def Obligations.RegisterAluResultAndFrame : Prop :=
  ∀ (s : State) (rs rt rd : RegIdx) (sh : Shamt),
    (∃ t, exec (.addu rs rt rd sh) s = .next t ∧
      WritesRegister s t rd (s.readReg rs + s.readReg rt) (s.pc + 4)) ∧
    (∃ t, exec (.subu rs rt rd sh) s = .next t ∧
      WritesRegister s t rd (s.readReg rs - s.readReg rt) (s.pc + 4)) ∧
    (∃ t, exec (.and rs rt rd sh) s = .next t ∧
      WritesRegister s t rd (s.readReg rs &&& s.readReg rt) (s.pc + 4)) ∧
    (∃ t, exec (.or rs rt rd sh) s = .next t ∧
      WritesRegister s t rd (s.readReg rs ||| s.readReg rt) (s.pc + 4)) ∧
    (∃ t, exec (.slt rs rt rd sh) s = .next t ∧
      WritesRegister s t rd (if (s.readReg rs - s.readReg rt).getLsbD 31 then 1 else 0) (s.pc + 4)) ∧
    (∃ t, exec (.sll rs rt rd sh) s = .next t ∧
      WritesRegister s t rd (s.readReg rt <<< sh.toNat) (s.pc + 4)) ∧
    (∃ t, exec (.srl rs rt rd sh) s = .next t ∧
      WritesRegister s t rd (s.readReg rt >>> sh.toNat) (s.pc + 4))

/-- R90, with the values of R91 to R94: ADDIU and LUI in every state, ANDI and ORI under the decided
`LOGIMM_EXT = sign`, complete with their value in `x[rt]`, and that is all they do. -/
def Obligations.ImmediateAluResultAndFrame : Prop :=
  ∀ (s : State) (rs rt : RegIdx) (imm16 : Imm16),
    (∃ t, exec (.addiu rs rt imm16) s = .next t ∧
      WritesRegister s t rt (s.readReg rs + imm16.signExtend 32) (s.pc + 4)) ∧
    (∃ t, exec (.lui rs rt imm16) s = .next t ∧
      WritesRegister s t rt (imm16.signExtend 32 <<< 16) (s.pc + 4)) ∧
    (s.cfg.logImmExt = .sign →
      (∃ t, exec (.andi rs rt imm16) s = .next t ∧
        WritesRegister s t rt (s.readReg rs &&& imm16.signExtend 32) (s.pc + 4)) ∧
      (∃ t, exec (.ori rs rt imm16) s = .next t ∧
        WritesRegister s t rt (s.readReg rs ||| imm16.signExtend 32) (s.pc + 4)))

/-- The named alternative `LOGIMM_EXT = zero` (R8, D4; log 9, the spec's decision kept as a parameter):
ANDI and ORI then use the zero-extended immediate, and complete all the same. -/
def Obligations.LogicalImmediateZeroAlternative : Prop :=
  ∀ (s : State) (rs rt : RegIdx) (imm16 : Imm16), s.cfg.logImmExt = .zero →
    (∃ t, exec (.andi rs rt imm16) s = .next t ∧
      WritesRegister s t rt (s.readReg rs &&& imm16.zeroExtend 32) (s.pc + 4)) ∧
    (∃ t, exec (.ori rs rt imm16) s = .next t ∧
      WritesRegister s t rt (s.readReg rs ||| imm16.zeroExtend 32) (s.pc + 4))

/-- What SLT's value means (the warning of R85, C5): it is the true signed comparison exactly when the
signed difference fits in 32 bits, and its opposite when the subtraction overflows. -/
def Obligations.SltIsSignOfWrappedDifference : Prop :=
  ∀ (s t : State) (rs rt rd : RegIdx) (sh : Shamt), Config.discards s.cfg rd = false →
    exec (.slt rs rt rd sh) s = .next t →
    let d := (s.readReg rs).toInt - (s.readReg rt).toInt
    (-(2 ^ 31) ≤ d ∧ d < 2 ^ 31 →
      (t.readReg rd = 1 ↔ (s.readReg rs).toInt < (s.readReg rt).toInt)) ∧
    (¬(-(2 ^ 31) ≤ d ∧ d < 2 ^ 31) →
      (t.readReg rd = 1 ↔ ¬((s.readReg rs).toInt < (s.readReg rt).toInt))) ∧
    (t.readReg rd = 0 ∨ t.readReg rd = 1)

/-- What LUI's value is (the corner cases of R94): the field in the upper half and zeros in the lower,
whichever way the immediate is extended. -/
def Obligations.LuiBuildsUpperHalf : Prop :=
  ∀ (s t : State) (rs rt : RegIdx) (imm16 : Imm16), Config.discards s.cfg rt = false →
    exec (.lui rs rt imm16) s = .next t →
    (t.readReg rt).extractLsb' 16 16 = imm16 ∧ (t.readReg rt).extractLsb' 0 16 = 0 ∧
      t.readReg rt = imm16.zeroExtend 32 <<< 16

/-- The document's sign-extension property (R59, S2): the immediate every I-format meaning uses is
`imm16 | 0xFFFF0000` when bit 15 is set and `imm16` when it is clear; ADDIU from a register that holds
0 shows it. -/
def Obligations.ImmediateSignExtends : Prop :=
  ∀ (s t : State) (rs rt : RegIdx) (imm16 : Imm16), Config.discards s.cfg rt = false → s.readReg rs = 0 →
    exec (.addiu rs rt imm16) s = .next t →
    t.readReg rt = (if imm16.getLsbD 15 then imm16.zeroExtend 32 ||| 0xFFFF0000 else imm16.zeroExtend 32)

/-! ## Loads and stores -/

/-- LW at a valid address: completes with the whole word in `x[rt]`, and that is all it does. -/
def Obligations.LoadWordCompletes : Prop :=
  ∀ (s : State) (rs rt : RegIdx) (imm16 : Imm16),
    let ea := s.readReg rs + imm16.signExtend 32
    ea.toNat % 4 = 0 → s.cfg.dbase ≤ ea.toNat → ea.toNat < s.cfg.memend →
    ∃ t, exec (.lw rs rt imm16) s = .next t ∧ WritesRegister s t rt (s.mem.read ea.toNat) (s.pc + 4)

/-- SW at a valid address: completes with the snapshot of `x[rt]` stored at the effective address, and
that is all it does; every other address reads as before. -/
def Obligations.StoreWordCompletes : Prop :=
  ∀ (s : State) (rs rt : RegIdx) (imm16 : Imm16),
    let ea := s.readReg rs + imm16.signExtend 32
    ea.toNat % 4 = 0 → s.cfg.dbase ≤ ea.toNat → ea.toNat < s.cfg.memend →
    s.effectiveAddress rs imm16 = ea ∧
    ∃ t, exec (.sw rs rt imm16) s = .next t ∧
      StoresWord s t (s.effectiveAddress rs imm16) (s.readReg rt)

/-- R100: LW and SW compute `ea = x[rs] + sext_32(imm16)`; on an address that is misaligned, below the
data region or at or past its end they halt with `MemoryAccess(ea, pc0)` and commit nothing, pc
included; on every other address they advance pc by 4. -/
def Obligations.DataAddressValidity : Prop :=
  ∀ (s : State) (rs rt : RegIdx) (imm16 : Imm16), s.status = .running →
    let ea := s.readReg rs + imm16.signExtend 32
    ∀ i, i = .lw rs rt imm16 ∨ i = .sw rs rt imm16 →
      ∃ t, exec i s = .next t ∧
        ((ea.toNat % 4 ≠ 0 ∨ ea.toNat < s.cfg.dbase ∨ s.cfg.memend ≤ ea.toNat) →
          HaltsWith s t (.memoryAccess s.pc ea)) ∧
        (¬(ea.toNat % 4 ≠ 0 ∨ ea.toNat < s.cfg.dbase ∨ s.cfg.memend ≤ ea.toNat) →
          t.status = .running ∧ t.pc = s.pc + 4)

/-- R153: from a running core, the cause `MemoryAccess` is entered exactly when the instruction is LW or
SW and its address is invalid; no other instruction can raise it, and no state changes. -/
def Obligations.OnlyLoadsAndStoresRaiseMemoryAccess : Prop :=
  ∀ (i : Instr) (s t : State), s.status = .running → exec i s = .next t →
    ((∃ h, t.status = .halted ∧ t.halt = some h ∧ h.cause = .memoryAccess) ↔
      ∃ rs rt imm16, (i = .lw rs rt imm16 ∨ i = .sw rs rt imm16) ∧
        ((s.readReg rs + imm16.signExtend 32).toNat % 4 ≠ 0 ∨
          (s.readReg rs + imm16.signExtend 32).toNat < s.cfg.dbase ∨
          s.cfg.memend ≤ (s.readReg rs + imm16.signExtend 32).toNat)) ∧
    (∀ h, t.status = .halted → t.halt = some h → h.cause = .memoryAccess →
      ∃ ea, h = .memoryAccess s.pc ea ∧ HaltsWith s t h ∧
        ∃ rs rt imm16, (i = .lw rs rt imm16 ∨ i = .sw rs rt imm16) ∧ ea = s.readReg rs + imm16.signExtend 32)

/-- R38: a word written at an address is read back there however many other addresses are written in
between, and a store followed immediately by a load at the same address returns the stored word
unchanged, whatever registers the two use. -/
def Obligations.StoreThenLoadReturnsValue : Prop :=
  (∀ (s : State) (a v : Word) (others : List (Word × Word)), (∀ p ∈ others, p.1 ≠ a) →
    (others.foldl (fun u p => u.memWrite p.1 p.2) (s.memWrite a v)).memRead a = v) ∧
  ∀ (s t u : State) (rs rt rs' rt' : RegIdx) (imm16 imm16' : Imm16),
    s.status = .running → exec (.sw rs rt imm16) s = .next t → t.status = .running →
    t.effectiveAddress rs' imm16' = s.effectiveAddress rs imm16 →
    exec (.lw rs' rt' imm16') t = .next u →
    u.status = .running ∧ (Config.discards s.cfg rt' = false → u.readReg rt' = s.readReg rt) ∧
      u.memRead (s.effectiveAddress rs imm16) = s.readReg rt

/-- R104: no instruction both accesses memory and redirects pc. LW and SW leave `pc0 + 4` when they
complete; an instruction that completes with any other pc is neither and changes no word. -/
def Obligations.MemoryAndControlAreDisjoint : Prop :=
  ∀ (i : Instr) (s t : State), s.status = .running → exec i s = .next t → t.status = .running →
    ((∃ rs rt imm16, i = .lw rs rt imm16 ∨ i = .sw rs rt imm16) → t.pc = s.pc + 4) ∧
    (t.pc ≠ s.pc + 4 →
      (¬ ∃ rs rt imm16, i = .lw rs rt imm16 ∨ i = .sw rs rt imm16) ∧
        ∀ a, t.mem.read a = s.mem.read a)

/-! ## Control transfer -/

/-- BEQ and BNE complete in every state: pc becomes `pc0 + 4 + (imm << 2)` when the two registers are
equal (BEQ) or differ (BNE), else `pc0 + 4`, and nothing else changes. -/
def Obligations.BranchesResultAndFrame : Prop :=
  ∀ (s : State) (rs rt : RegIdx) (imm16 : Imm16),
    (∃ t, exec (.beq rs rt imm16) s = .next t ∧
      OnlyMovesPc s t (s.pc + 4 +
        (if s.readReg rs = s.readReg rt then imm16.signExtend 32 <<< 2 else 0))) ∧
    (∃ t, exec (.bne rs rt imm16) s = .next t ∧
      OnlyMovesPc s t (s.pc + 4 +
        (if s.readReg rs ≠ s.readReg rt then imm16.signExtend 32 <<< 2 else 0)))

/-- J, JAL and JR complete in every state. J and JAL go to the target built from the jump's own
address; JAL also writes `pc0 + 4` to register 31; JR goes to the value of `x[rs]`, whatever it is, and
its `rt`, `rd`, `shamt` have no effect. -/
def Obligations.JumpsResultAndFrame : Prop :=
  ∀ (s : State) (target26 : Target26) (rs rt rd : RegIdx) (sh : Shamt),
    let target := (s.pc &&& 0xF0000000) ||| (target26.zeroExtend 32 <<< 2)
    (∃ t, exec (.j target26) s = .next t ∧ OnlyMovesPc s t target) ∧
    (∃ t, exec (.jal target26) s = .next t ∧ WritesRegister s t 31 (s.pc + 4) target) ∧
    (∃ t, exec (.jr rs rt rd sh) s = .next t ∧ OnlyMovesPc s t (s.readReg rs))

/-- R60: the address J and JAL set has bits 31..28 of the jump's own address, bits 27..2 from the field
and bits 1..0 zero; it is `(pc0 & 0xF0000000) | (target26 << 2)`, always a multiple of 4. -/
def Obligations.JumpTargetBits : Prop :=
  ∀ (s t : State) (target26 : Target26) (i : Instr), i = .j target26 ∨ i = .jal target26 →
    exec i s = .next t →
    t.pc.extractLsb' 28 4 = s.pc.extractLsb' 28 4 ∧ t.pc.extractLsb' 2 26 = target26 ∧
      t.pc.extractLsb' 0 2 = 0 ∧ t.pc = (s.pc &&& 0xF0000000) ||| (target26.zeroExtend 32 <<< 2) ∧
      t.pc.toNat % 4 = 0

/-- R61: a taken branch adds to `pc0 + 4`, not to `pc0`, the word `imm << 2`, which read as a signed
number is the signed immediate times 4, between -131072 and 131068. -/
def Obligations.BranchOffsetIsSignedWordOffset : Prop :=
  ∀ (s t : State) (rs rt : RegIdx) (imm16 : Imm16),
    (exec (.beq rs rt imm16) s = .next t ∧ s.readReg rs = s.readReg rt) ∨
      (exec (.bne rs rt imm16) s = .next t ∧ s.readReg rs ≠ s.readReg rt) →
    ∃ offset : Word, t.pc = (s.pc + 4) + offset ∧ offset = imm16.signExtend 32 <<< 2 ∧
      offset.toInt = imm16.toInt * 4 ∧ -131072 ≤ offset.toInt ∧ offset.toInt ≤ 131068

/-- JAL then `jr $31`: control comes back to the instruction after the JAL (R114, R115, R118). -/
def Obligations.CallThenReturn : Prop :=
  ∀ (s t u : State) (target26 : Target26) (rt rd : RegIdx) (sh : Shamt),
    exec (.jal target26) s = .next t → exec (.jr 31 rt rd sh) t = .next u →
    u.pc = s.pc + 4 ∧ (∀ r, r ≠ 31 → u.readReg r = s.readReg r) ∧ ∀ a, u.mem.read a = s.mem.read a

/-- Only JR can misalign pc (the sentence of R34): from an aligned pc a step that does not run JR leaves
an aligned pc. -/
def Obligations.OnlyJrMisalignsPc : Prop :=
  ∀ s t : State, s.status = .running → s.pc.toNat % 4 = 0 → step s = .next t →
    (∀ rs rt rd sh, decode (s.memRead s.pc) ≠ .ok (.jr rs rt rd sh)) → t.pc.toNat % 4 = 0

/-- A bad target is accepted into pc by the transfer itself and faults at the next fetch, with the bad
target as `halt_pc` (R117; the fault is the spec's decision D8, log 8). -/
def Obligations.BadTargetFaultsAtNextFetch : Prop :=
  ∀ (i : Instr) (s : State), s.cfg.WF → s.status = .running →
    (i.mnemonic = .BEQ ∨ i.mnemonic = .BNE ∨ i.mnemonic = .J ∨ i.mnemonic = .JAL ∨ i.mnemonic = .JR) →
    ∃ t, exec i s = .next t ∧ t.status = .running ∧
      ((t.pc.toNat % 4 ≠ 0 ∨ t.pc.toNat < s.cfg.ibase ∨ s.cfg.ibase + s.cfg.isize ≤ t.pc.toNat) →
        ∃ u, step t = .next u ∧ HaltsWith t u (.fetchFault t.pc))

/-! ## Halting -/

/-- R151 (and the step of R120): a running core whose fetched word is zero takes the halting step with
cause `ZeroWord`, the normal end; it is HALT and never SLL, no register, no word and not pc changes, and
HALT's own meaning is that same step. -/
def Obligations.ZeroWordHalts : Prop :=
  decode 0 = .ok .halt ∧
  (∀ s : State, ∃ t, exec .halt s = .next t ∧ HaltsWith s t (.zeroWord s.pc)) ∧
  (∀ s : State, s.cfg.WF → s.status = .running → fetchValid s.cfg s.pc → s.memRead s.pc = 0 →
    ∃ t, step s = .next t ∧ HaltsWith s t (.zeroWord s.pc) ∧ t.endedNormally ∧
      (HaltRecord.zeroWord s.pc).haltWord = some 0)

/-- An illegal word halts with its own cause and the word latched (R121, R152). Which words are illegal
rests on the opcode numbers of R57 and R58 (log 2, PRESUMED) and on D6 for function codes (log 13). -/
def Obligations.IllegalWordHalts : Prop :=
  ∀ s : State, s.cfg.WF → s.status = .running → fetchValid s.cfg s.pc →
    let w := s.memRead s.pc
    w ≠ 0 →
    ((w.extractLsb' 26 6 = 0 ∧
        w.extractLsb' 0 6 ∉ [0x00, 0x02, 0x08, 0x21, 0x23, 0x24, 0x25, (0x2A : BitVec 6)]) ∨
      w.extractLsb' 26 6 ∉ [0x00, 0x02, 0x03, 0x04, 0x05, 0x09, 0x0C, 0x0D, 0x0F, 0x23, (0x2B : BitVec 6)]) →
    ∃ t, step s = .next t ∧ HaltsWith s t (.illegalInstruction s.pc w)

/-- A fetch that is misaligned or outside the instruction region halts with `FetchFault(pc0)` (R34, R154;
the spec's decision D8, log 8). -/
def Obligations.BadFetchAddressHalts : Prop :=
  ∀ s : State, s.cfg.WF → s.status = .running →
    (s.pc.toNat % 4 ≠ 0 ∨ s.pc.toNat < s.cfg.ibase ∨ s.cfg.ibase + s.cfg.isize ≤ s.pc.toNat) →
    ∃ t, step s = .next t ∧ HaltsWith s t (.fetchFault s.pc)

/-- Which cause a step of a running core enters (R151 to R154), in stage order (R156): fetch fault, zero
word, illegal word (no row of the opcode table), bad data address; the four cannot coincide. Two clauses
rest on more than the document: that a bad fetch address faults is the spec's decision D8 (log 8,
DEDUCED), and which words select no row rests on the opcode numbers (D3; log 2, PRESUMED) and on D6 for
unlisted function codes (log 13, DEDUCED). -/
def Obligations.HaltCausesInStageOrder : Prop :=
  ∀ s t : State, s.status = .running → s.halt = none → step s = .next t →
    (t.halt = some (.fetchFault s.pc) ↔ ¬ fetchValid s.cfg s.pc) ∧
    (t.halt = some (.zeroWord s.pc) ↔ fetchValid s.cfg s.pc ∧ s.memRead s.pc = 0) ∧
    (t.halt = some (.illegalInstruction s.pc (s.memRead s.pc)) ↔
      fetchValid s.cfg s.pc ∧ selectRow (s.memRead s.pc) = none) ∧
    (∀ ea, t.halt = some (.memoryAccess s.pc ea) ↔
      fetchValid s.cfg s.pc ∧ ¬ dataValid s.cfg ea ∧
        ∃ rs rt imm16, s.effectiveAddress rs imm16 = ea ∧
          (decode (s.memRead s.pc) = .ok (.lw rs rt imm16) ∨ decode (s.memRead s.pc) = .ok (.sw rs rt imm16))) ∧
    (t.status = .halted ↔ t.halt ≠ none)

/-- A step that halts commits nothing: only status and the halt record change, the record names the
address of the halting instruction, and the outcome the driver gets is that record (R138, R142, R155;
the spec's decisions D9 and D13, log 5). -/
def Obligations.HaltingStepCommitsNothing : Prop :=
  ∀ s t : State, s.status = .running → step s = .next t → t.status = .halted →
    ∃ h, HaltsWith s t h ∧ h.haltPc = s.pc ∧ t = s.enterHalt h ∧ t.outcome = some (.halted h)

/-- The end of a run is normal exactly when the word fetched was zero; every other halt is a faulted
state (R123; the naming is the spec's decision D13). -/
def Obligations.RunEndsNormallyExactlyOnZeroWord : Prop :=
  ∀ s t : State, s.status = .running → step s = .next t → t.status = .halted →
    (t.endedNormally ↔ fetchValid s.cfg s.pc ∧ s.memRead s.pc = 0) ∧ (t.faulted ↔ ¬ t.endedNormally)

/-- Halted is terminal (R157): no step and no load leaves it, only reset does, from any state. That the
steps asked of a halted core answer the very same state and the same outcome is R144, the spec's decision
D14 (log 5, DEDUCED). -/
def Obligations.HaltedIsTerminal : Prop :=
  (∀ (s : State) (n : Nat), s.cfg.WF → s.status = .halted →
    core.run n s = .next s ∧
      ∀ t, core.run n s = .next t → t.outcome = s.outcome ∧ t.status = .halted) ∧
  (∀ (s t : State) (program : List Word), s.load program = some t → t.status = s.status) ∧
  (∀ s : State, s.hostReset.status = .running ∧ s.hostReset.halt = none)

/-! ## The step -/

/-- A step of a running core runs the instruction its fetched word decodes to, at that same state: there
is nothing around `exec` on this hardware, no delay slot and no pending effect (R116, R140). -/
def Obligations.StepRunsDecodedInstruction : Prop :=
  ∀ (s : State) (i : Instr), s.cfg.WF → s.status = .running → fetchValid s.cfg s.pc →
    decode (s.memRead s.pc) = .ok i → step s = exec i s

/-- Every step of a core whose configuration obeys R6 answers a next state, whatever the state; only a
configuration outside R6 stops the model (R135, R141; the stop is the model's choice, log 4). That a
halted core steps to itself is the spec's decision D14 (log 5). -/
def Obligations.StepIsTotal : Prop :=
  ∀ s : State, (s.cfg.WF → ∃ t, step s = .next t) ∧
    (¬ s.cfg.WF → step s = .fault .configurationOutsideRules)

/-- The pc after a step, by the instruction that ran (the table of R16), for the next statement. -/
def Sys2Proof.Claims.pcAfter (i : Instr) (s : State) : Word :=
  match i with
  | .beq rs rt imm16 =>
    if s.readReg rs = s.readReg rt then s.pc + 4 + (imm16.signExtend 32 <<< 2) else s.pc + 4
  | .bne rs rt imm16 =>
    if s.readReg rs = s.readReg rt then s.pc + 4 else s.pc + 4 + (imm16.signExtend 32 <<< 2)
  | .j target26 => (s.pc &&& 0xF0000000) ||| (target26.zeroExtend 32 <<< 2)
  | .jal target26 => (s.pc &&& 0xF0000000) ||| (target26.zeroExtend 32 <<< 2)
  | .jr rs _ _ _ => s.readReg rs
  | _ => s.pc + 4

/-- R16: pc at the end of every step of a running core: the table's value when the instruction
completes, unchanged when the step halts or faults. -/
def Obligations.PcAfterEveryStep : Prop :=
  ∀ s t : State, s.status = .running → step s = .next t →
    (t.status = .halted → t.pc = s.pc) ∧
    (t.status = .running → ∃ i, decode (s.memRead s.pc) = .ok i ∧ t.pc = pcAfter i s)

/-- The registers an instruction reads (the table of R13). -/
def Sys2Proof.Claims.readSet (i : Instr) : List RegIdx :=
  match i with
  | .addu rs rt _ _ => [rs, rt]
  | .subu rs rt _ _ => [rs, rt]
  | .and rs rt _ _ => [rs, rt]
  | .or rs rt _ _ => [rs, rt]
  | .slt rs rt _ _ => [rs, rt]
  | .sll _ rt _ _ => [rt]
  | .srl _ rt _ _ => [rt]
  | .jr rs _ _ _ => [rs]
  | .addiu rs _ _ => [rs]
  | .andi rs _ _ => [rs]
  | .ori rs _ _ => [rs]
  | .lui _ _ _ => []
  | .lw rs _ _ => [rs]
  | .sw rs rt _ => [rs, rt]
  | .beq rs rt _ => [rs, rt]
  | .bne rs rt _ => [rs, rt]
  | .j _ => []
  | .jal _ => []
  | .halt => []

/-- The register an instruction writes (the table of R13). -/
def Sys2Proof.Claims.writeSet (i : Instr) : Option RegIdx :=
  match i with
  | .addu _ _ rd _ => some rd
  | .subu _ _ rd _ => some rd
  | .and _ _ rd _ => some rd
  | .or _ _ rd _ => some rd
  | .slt _ _ rd _ => some rd
  | .sll _ _ rd _ => some rd
  | .srl _ _ rd _ => some rd
  | .jr _ _ _ _ => none
  | .addiu _ rt _ => some rt
  | .andi _ rt _ => some rt
  | .ori _ rt _ => some rt
  | .lui _ rt _ => some rt
  | .lw _ rt _ => some rt
  | .sw _ _ _ => none
  | .beq _ _ _ => none
  | .bne _ _ _ => none
  | .j _ => none
  | .jal _ => some 31
  | .halt => none

/-- R13: what a step reads and writes among the registers. Two running cores that differ only in
registers outside the instruction's read set take steps that agree on pc, memory, status, halt record
and report, and on the written register where the write is not discarded; a register outside the write
set keeps its value; and a step that completes reports exactly the write set. HALT and an illegal word
read and write none. -/
def Obligations.RegisterReadAndWriteSets : Prop :=
  ∀ (s s' t t' : State) (reads : List RegIdx) (writes : Option RegIdx),
    s.status = .running →
    ((∃ i, decode (s.memRead s.pc) = .ok i ∧ reads = readSet i ∧ writes = writeSet i) ∨
      ((∃ e, decode (s.memRead s.pc) = .error e) ∧ reads = [] ∧ writes = none)) →
    s'.cfg = s.cfg ∧ s'.pc = s.pc ∧ s'.mem = s.mem ∧ s'.status = s.status ∧ s'.halt = s.halt ∧
      s'.report = s.report →
    (∀ r ∈ reads, s'.readReg r = s.readReg r) →
    step s = .next t → step s' = .next t' →
    t'.pc = t.pc ∧ t'.mem = t.mem ∧ t'.status = t.status ∧ t'.halt = t.halt ∧
      t'.report = t.report ∧
      (∀ r, writes ≠ some r → t.readReg r = s.readReg r) ∧
      (t.status = .running → t.report.map (·.changedReg) = some writes) ∧
      (∀ r, writes = some r → Config.discards s.cfg r = false → t.status = .running →
        t'.readReg r = t.readReg r)

/-- The report accounts for every change of a completed step: outside the register and the address it
names nothing differs, it names at most one of the two, and it carries the new pc (R142, R143). -/
def Obligations.ReportAccountsForEveryChange : Prop :=
  ∀ s t : State, s.status = .running → step s = .next t → t.status = .running →
    ∃ r, t.report = some r ∧ t.outcome = some (.ok r) ∧ r.newPc = t.pc ∧
      (r.changedReg = none ∨ r.changedMem = none) ∧
      (∀ i, r.changedReg ≠ some i → t.readReg i = s.readReg i) ∧
      (∀ a : Nat, (∀ x, r.changedMem = some x → a ≠ x.toNat) → t.mem.read a = s.mem.read a) ∧
      (∀ a, r.changedMem = some a → s.cfg.dbase ≤ a.toNat ∧ a.toNat < s.cfg.memend)

/-- Only SW changes a word while the core runs, and only the data-region word at its effective address
(R22). -/
def Obligations.OnlyStoresChangeMemory : Prop :=
  ∀ (s t : State) (a : Nat), step s = .next t → t.mem.read a ≠ s.mem.read a →
    s.status = .running ∧ s.cfg.dbase ≤ a ∧ a < s.cfg.memend ∧ a % 4 = 0 ∧
      ∃ rs rt imm16, decode (s.memRead s.pc) = .ok (.sw rs rt imm16) ∧
        a = (s.readReg rs + imm16.signExtend 32).toNat ∧ t.mem.read a = s.readReg rt

/-- The instruction region and the configuration are constant for a whole run, however long (R23, R32,
R47): a program cannot change the code it will fetch. -/
def Obligations.InstructionRegionConstantOverRuns : Prop :=
  ∀ (n : Nat) (s t : State), core.run n s = .next t →
    t.cfg = s.cfg ∧ ∀ a : Nat, a < s.cfg.dbase → t.mem.read a = s.mem.read a

/-- The per-instruction meanings agree with the instruction cycle of R131 to R140 read stage by stage:
from every running state of a configuration of R6, a step is exactly the staged step. -/
def Obligations.StepIsTheStagedCycle : Prop :=
  ∀ s : State, s.cfg.WF → s.status = .running → step s = .next (stagedStep s)

/-! ## Invariant, reset and load -/

/-- The reset values of every piece of state, for every configuration of R6 (R25, R180). The pc, the
seeding of register 29 and the status are the spec's decisions D11, D12, D13 (logs 11, 12). -/
def Obligations.ResetValues : Prop :=
  ∀ c : Config, c.WF →
    let s := State.resetWith c
    s.cfg = c ∧ s.pc.toNat = c.ibase ∧
      (c.seedSp = true → (s.readReg 29).toNat = c.memend) ∧ (c.seedSp = false → s.readReg 29 = 0) ∧
      (∀ r, r ≠ 29 → s.readReg r = 0) ∧ (∀ a, s.mem.read a = 0) ∧
      s.status = .running ∧ s.halt = none ∧ ∀ t : State, t.cfg = c → t.hostReset = s

/-- The invariant holds after reset, in every configuration of R6 and so in `CFG0`. -/
def Obligations.ResetEstablishesInvariant : Prop :=
  State.reset.Inv ∧ ∀ c : Config, c.WF → (State.resetWith c).Inv

/-- Every step keeps the invariant, from every state that has it: memory stays canonical and inside the
image, a hard-wired register 0 stays zero, and status, halt record and report stay true of the state. The
hard-wired register is the alternative of D5 (log 10), and the record of a bad fetch rests on D8 (log 8). -/
def Obligations.StepKeepsInvariant : Prop :=
  ∀ s t : State, s.Inv → step s = .next t → t.Inv

/-- R184: the loader stores word `k` at `IBASE + 4k`, in order, and writes nothing else, not the data
region, not a register, not pc; a program longer than the instruction region is refused whole. From
reset this gives the launch state: every other word is zero. -/
def Obligations.LoaderPlacesProgram : Prop :=
  ∀ (s : State) (program : List Word), s.cfg.WF →
    (s.cfg.isize / 4 < program.length → s.load program = none) ∧
    (program.length ≤ s.cfg.isize / 4 →
      ∃ t, s.load program = some t ∧
        (∀ k (hk : k < program.length), t.mem.read (s.cfg.ibase + 4 * k) = program[k]) ∧
        (∀ a : Nat, (∀ k, k < program.length → a ≠ s.cfg.ibase + 4 * k) → t.mem.read a = s.mem.read a) ∧
        (∀ a : Nat, s.cfg.dbase ≤ a → t.mem.read a = s.mem.read a) ∧
        (∀ r, t.readReg r = s.readReg r) ∧ t.pc = s.pc ∧ t.cfg = s.cfg ∧ t.status = s.status ∧
        t.halt = s.halt ∧ t.report = s.report) ∧
    (∀ t, launch s.cfg program = some t →
      ∀ a : Nat, (∀ k, k < program.length → a ≠ s.cfg.ibase + 4 * k) → t.mem.read a = 0)

/-- Loading a program into a running core keeps the invariant, so a launch state has it. -/
def Obligations.LoadKeepsInvariant : Prop :=
  (∀ (s t : State) (program : List Word), s.Inv → s.status = .running → s.load program = some t → t.Inv) ∧
  ∀ (c : Config) (program : List Word) (s : State), c.WF → launch c program = some s → s.Inv

/-- The first step after launch runs the first word of the program at `IBASE`; with no program loaded it
halts with `ZeroWord` (R181, R182; the entry point is the spec's decision D11, log 12). -/
def Obligations.FirstStepRunsFirstWord : Prop :=
  ∀ (c : Config) (s : State) (w : Word) (rest : List Word), c.WF → launch c (w :: rest) = some s →
    s.pc.toNat = c.ibase ∧ s.memRead s.pc = w ∧ (∀ i, decode w = .ok i → step s = exec i s) ∧
    ∃ t, step (State.resetWith c) = .next t ∧ t.halt = some (.zeroWord (State.resetWith c).pc)

/-- `withFetchWord` places an instruction so that the very next step runs it: the model's stand-in for
the loader (log 16), on every running state whose pc can be fetched from. -/
def Obligations.PlacedWordRunsNext : Prop :=
  ∀ (s : State) (i : Instr), s.cfg.WF → s.status = .running → fetchValid s.cfg s.pc → i.wellFormed = true →
    step (s.withFetchWord 32 (encode i).toNat) = exec i (s.withFetchWord 32 (encode i).toNat) ∧
    (∀ r, (s.withFetchWord 32 (encode i).toNat).readReg r = s.readReg r) ∧
    (∀ a : Nat, a ≠ s.pc.toNat → (s.withFetchWord 32 (encode i).toNat).mem.read a = s.mem.read a)

/-! ## Encoding -/

/-- Decoding the word of a well-formed instruction gives the instruction back, with every field at every
value, the unused ones too. -/
def Obligations.DecodeOfEncode : Prop :=
  ∀ i : Instr, i.wellFormed = true → decode (encode i) = .ok i

/-- R70: for every word the decoder accepts, decoding then re-encoding the extracted fields reproduces
the word, unused fields included; the re-encoded word of each shape is the shift-and-or formula of the
rule, the jump field being bits 27..2 of the decoded target. -/
def Obligations.EncodeOfDecode : Prop :=
  (∀ (w : Word) (i : Instr), decode w = .ok i → encode i = w) ∧
  (∀ (rs rt rd : RegIdx) (sh : Shamt) (fn : BitVec 6), registerWord rs rt rd sh fn =
    ((0 : Word) <<< 26) ||| (rs.zeroExtend 32 <<< 21) ||| (rt.zeroExtend 32 <<< 16) |||
      (rd.zeroExtend 32 <<< 11) ||| (sh.zeroExtend 32 <<< 6) ||| fn.zeroExtend 32) ∧
  (∀ (op : BitVec 6) (rs rt : RegIdx) (imm16 : Imm16), immediateWord op rs rt imm16 =
    (op.zeroExtend 32 <<< 26) ||| (rs.zeroExtend 32 <<< 21) ||| (rt.zeroExtend 32 <<< 16) |||
      ((imm16.signExtend 32).extractLsb' 0 16).zeroExtend 32) ∧
  (∀ (op : BitVec 6) (target26 : Target26) (pc0 : Word), jumpWord op target26 =
    (op.zeroExtend 32 <<< 26) ||| ((jumpTarget pc0 target26).extractLsb' 2 26).zeroExtend 32)

/-- The decoder against the opcode table (R73; numbers of log 2, unlisted function codes of log 13): a
word is refused exactly when it selects no row, an accepted word decodes to the instruction of the row it
selects, and after HALT no word selects two rows. -/
def Obligations.DecodeAgreesWithOpcodeTable : Prop :=
  ∀ w : Word,
    ((∃ e, decode w = .error e) ↔ selectRow w = none) ∧
    (∀ i, decode w = .ok i → i.wellFormed = true ∧ ∃ r, selectRow w = some r ∧ r.mnemonic = i.mnemonic) ∧
    (∀ r r', r ∈ opcodeTable.tail → r' ∈ opcodeTable.tail → r.selects w = true → r'.selects w = true → r = r')

/-- A check of fixed words: nine words written out from the spec's encodings (spec/95_test_vectors.md
V-ENC), of every format and family, decode to the instructions they stand for. It rests wholly on the
opcode and function numbers of R57 and R58, the spec's decision D3 (log 2, PRESUMED). -/
def Obligations.WordsOfTheManualDecode : Prop :=
  decode 0b00000000001000100001100000100001 = .ok (.addu 1 2 3 0) ∧
  decode 0b00000000000000100001100100000000 = .ok (.sll 0 2 3 4) ∧
  decode 0b00100100001000101111111111111111 = .ok (.addiu 1 2 0xFFFF) ∧
  decode 0b10001100001000100000000000001000 = .ok (.lw 1 2 8) ∧
  decode 0b10101100001000101111111111111100 = .ok (.sw 1 2 0xFFFC) ∧
  decode 0b00010000001000100000000000000100 = .ok (.beq 1 2 4) ∧
  decode 0b00001100000000000000000100000000 = .ok (.jal 0x100) ∧
  decode 0b00000011111000000000000000001000 = .ok (.jr 31 0 0 0) ∧
  decode 0b00000000000000000000000000000000 = .ok .halt
end

