-- ==== Sys2Proof/Laws/Decode.lean ====
section
/-! SUPPORT. The fields of the words the encoder builds, and a word put together again from its fields
(spec/30_encoding.md R51 to R54). -/

namespace Sys2Proof

section Fields

variable (op fn : BitVec 6) (rs rt rd : RegIdx) (sh : Shamt) (imm : Imm16) (tgt : Target26)

@[simp] theorem fieldOp_registerWord : fieldOp (registerWord rs rt rd sh fn) = opRegister := by
  show (opRegister ++ rs ++ rt ++ rd ++ sh ++ fn : BitVec (6 + 5 + 5 + 5 + 5 + 6)).extractLsb' 26 6 = opRegister
  repeat first
    | rw [BitVec.extractLsb'_append_eq_of_add_le (by decide)]
    | rw [BitVec.extractLsb'_append_eq_of_le (by decide)]
  simp
@[simp] theorem fieldRs_registerWord : fieldRs (registerWord rs rt rd sh fn) = rs := by
  show (opRegister ++ rs ++ rt ++ rd ++ sh ++ fn : BitVec (6 + 5 + 5 + 5 + 5 + 6)).extractLsb' 21 5 = rs
  repeat first
    | rw [BitVec.extractLsb'_append_eq_of_add_le (by decide)]
    | rw [BitVec.extractLsb'_append_eq_of_le (by decide)]
  simp
@[simp] theorem fieldRt_registerWord : fieldRt (registerWord rs rt rd sh fn) = rt := by
  show (opRegister ++ rs ++ rt ++ rd ++ sh ++ fn : BitVec (6 + 5 + 5 + 5 + 5 + 6)).extractLsb' 16 5 = rt
  repeat first
    | rw [BitVec.extractLsb'_append_eq_of_add_le (by decide)]
    | rw [BitVec.extractLsb'_append_eq_of_le (by decide)]
  simp
@[simp] theorem fieldRd_registerWord : fieldRd (registerWord rs rt rd sh fn) = rd := by
  show (opRegister ++ rs ++ rt ++ rd ++ sh ++ fn : BitVec (6 + 5 + 5 + 5 + 5 + 6)).extractLsb' 11 5 = rd
  repeat first
    | rw [BitVec.extractLsb'_append_eq_of_add_le (by decide)]
    | rw [BitVec.extractLsb'_append_eq_of_le (by decide)]
  simp
@[simp] theorem fieldShamt_registerWord : fieldShamt (registerWord rs rt rd sh fn) = sh := by
  show (opRegister ++ rs ++ rt ++ rd ++ sh ++ fn : BitVec (6 + 5 + 5 + 5 + 5 + 6)).extractLsb' 6 5 = sh
  repeat first
    | rw [BitVec.extractLsb'_append_eq_of_add_le (by decide)]
    | rw [BitVec.extractLsb'_append_eq_of_le (by decide)]
  simp
@[simp] theorem fieldFunct_registerWord : fieldFunct (registerWord rs rt rd sh fn) = fn := by
  show (opRegister ++ rs ++ rt ++ rd ++ sh ++ fn : BitVec (6 + 5 + 5 + 5 + 5 + 6)).extractLsb' 0 6 = fn
  repeat rw [BitVec.extractLsb'_append_eq_of_add_le (by decide)]
  simp

@[simp] theorem fieldOp_immediateWord : fieldOp (immediateWord op rs rt imm) = op := by
  show (op ++ rs ++ rt ++ imm : BitVec (6 + 5 + 5 + 16)).extractLsb' 26 6 = op
  repeat first
    | rw [BitVec.extractLsb'_append_eq_of_add_le (by decide)]
    | rw [BitVec.extractLsb'_append_eq_of_le (by decide)]
  simp
@[simp] theorem fieldRs_immediateWord : fieldRs (immediateWord op rs rt imm) = rs := by
  show (op ++ rs ++ rt ++ imm : BitVec (6 + 5 + 5 + 16)).extractLsb' 21 5 = rs
  repeat first
    | rw [BitVec.extractLsb'_append_eq_of_add_le (by decide)]
    | rw [BitVec.extractLsb'_append_eq_of_le (by decide)]
  simp
@[simp] theorem fieldRt_immediateWord : fieldRt (immediateWord op rs rt imm) = rt := by
  show (op ++ rs ++ rt ++ imm : BitVec (6 + 5 + 5 + 16)).extractLsb' 16 5 = rt
  repeat first
    | rw [BitVec.extractLsb'_append_eq_of_add_le (by decide)]
    | rw [BitVec.extractLsb'_append_eq_of_le (by decide)]
  simp
@[simp] theorem fieldImm16_immediateWord : fieldImm16 (immediateWord op rs rt imm) = imm := by
  show (op ++ rs ++ rt ++ imm : BitVec (6 + 5 + 5 + 16)).extractLsb' 0 16 = imm
  repeat rw [BitVec.extractLsb'_append_eq_of_add_le (by decide)]
  simp

@[simp] theorem fieldOp_jumpWord : fieldOp (jumpWord op tgt) = op := by
  show (op ++ tgt : BitVec (6 + 26)).extractLsb' 26 6 = op
  repeat first
    | rw [BitVec.extractLsb'_append_eq_of_add_le (by decide)]
    | rw [BitVec.extractLsb'_append_eq_of_le (by decide)]
  simp
@[simp] theorem fieldTarget26_jumpWord : fieldTarget26 (jumpWord op tgt) = tgt := by
  show (op ++ tgt : BitVec (6 + 26)).extractLsb' 0 26 = tgt
  repeat rw [BitVec.extractLsb'_append_eq_of_add_le (by decide)]
  simp

end Fields

/-- A register-format word is its fields put together (R52). -/
theorem registerWord_fields {w : Word} (h : fieldOp w = opRegister) :
    registerWord (fieldRs w) (fieldRt w) (fieldRd w) (fieldShamt w) (fieldFunct w) = w := by
  show (opRegister ++ fieldRs w ++ fieldRt w ++ fieldRd w ++ fieldShamt w ++ fieldFunct w
    : BitVec (6 + 5 + 5 + 5 + 5 + 6)) = w
  rw [← h]
  ext k hk
  simp only [BitVec.getElem_append, fieldOp, fieldRs, fieldRt, fieldRd, fieldShamt, fieldFunct,
    BitVec.getElem_extractLsb']
  interval_cases k <;> simp

/-- An immediate-format word is its fields put together (R53). -/
theorem immediateWord_fields (w : Word) :
    immediateWord (fieldOp w) (fieldRs w) (fieldRt w) (fieldImm16 w) = w := by
  show (fieldOp w ++ fieldRs w ++ fieldRt w ++ fieldImm16 w : BitVec (6 + 5 + 5 + 16)) = w
  ext k hk
  simp only [BitVec.getElem_append, fieldOp, fieldRs, fieldRt, fieldImm16,
    BitVec.getElem_extractLsb']
  interval_cases k <;> simp

/-- A jump-format word is its fields put together (R54). -/
theorem jumpWord_fields (w : Word) : jumpWord (fieldOp w) (fieldTarget26 w) = w := by
  show (fieldOp w ++ fieldTarget26 w : BitVec (6 + 26)) = w
  ext k hk
  simp only [BitVec.getElem_append, fieldOp, fieldTarget26,
    BitVec.getElem_extractLsb']
  interval_cases k <;> simp

/-- A word with a non-zero opcode or function field is not the zero word. -/
theorem ne_zero_of_fieldOp {w : Word} (h : fieldOp w ≠ 0) : w ≠ 0 := fun e => h (by subst e; rfl)

theorem ne_zero_of_fieldFunct {w : Word} (h : fieldFunct w ≠ 0) : w ≠ 0 := fun e => h (by subst e; rfl)

/-- Concatenation inside a word as shift-and-or, the form in which R70 and the instruction rules write an
encoding. -/
theorem zeroExtend_append {n m : Nat} (a : BitVec n) (b : BitVec m) (h : n + m ≤ 32) :
    (a ++ b).zeroExtend 32 = (a.zeroExtend 32 <<< m) ||| b.zeroExtend 32 := by
  apply BitVec.eq_of_getLsbD_eq
  intro k hk
  simp only [BitVec.truncate_eq_setWidth, BitVec.getLsbD_setWidth, BitVec.getLsbD_append, BitVec.getLsbD_or,
    BitVec.getLsbD_shiftLeft, hk, decide_true, Bool.true_and]
  by_cases h1 : k < m
  · simp [h1]
  · have hb : b.getLsbD k = false := BitVec.getLsbD_of_ge b k (by omega)
    simp only [h1, if_false, hb, Bool.or_false, decide_false, Bool.not_false, Bool.true_and,
      decide_eq_true (show k - m < 32 by omega)]

/-! What the decoder answers, said once (R64, R68). -/

/-- The guards under which the decoder accepts a word as an instruction. -/
inductive Decodes (w : Word) : Instr → Prop
  | halt (h0 : w = 0) : Decodes w .halt
  | sll (h0 : w ≠ 0) (ho : fieldOp w = opRegister) (hf : fieldFunct w = fnSll) :
      Decodes w (.sll (fieldRs w) (fieldRt w) (fieldRd w) (fieldShamt w))
  | srl (h0 : w ≠ 0) (ho : fieldOp w = opRegister) (hf : fieldFunct w = fnSrl) :
      Decodes w (.srl (fieldRs w) (fieldRt w) (fieldRd w) (fieldShamt w))
  | jr (h0 : w ≠ 0) (ho : fieldOp w = opRegister) (hf : fieldFunct w = fnJr) :
      Decodes w (.jr (fieldRs w) (fieldRt w) (fieldRd w) (fieldShamt w))
  | addu (h0 : w ≠ 0) (ho : fieldOp w = opRegister) (hf : fieldFunct w = fnAddu) :
      Decodes w (.addu (fieldRs w) (fieldRt w) (fieldRd w) (fieldShamt w))
  | subu (h0 : w ≠ 0) (ho : fieldOp w = opRegister) (hf : fieldFunct w = fnSubu) :
      Decodes w (.subu (fieldRs w) (fieldRt w) (fieldRd w) (fieldShamt w))
  | and (h0 : w ≠ 0) (ho : fieldOp w = opRegister) (hf : fieldFunct w = fnAnd) :
      Decodes w (.and (fieldRs w) (fieldRt w) (fieldRd w) (fieldShamt w))
  | or (h0 : w ≠ 0) (ho : fieldOp w = opRegister) (hf : fieldFunct w = fnOr) :
      Decodes w (.or (fieldRs w) (fieldRt w) (fieldRd w) (fieldShamt w))
  | slt (h0 : w ≠ 0) (ho : fieldOp w = opRegister) (hf : fieldFunct w = fnSlt) :
      Decodes w (.slt (fieldRs w) (fieldRt w) (fieldRd w) (fieldShamt w))
  | j (ho : fieldOp w = opJ) : Decodes w (.j (fieldTarget26 w))
  | jal (ho : fieldOp w = opJal) : Decodes w (.jal (fieldTarget26 w))
  | beq (ho : fieldOp w = opBeq) : Decodes w (.beq (fieldRs w) (fieldRt w) (fieldImm16 w))
  | bne (ho : fieldOp w = opBne) : Decodes w (.bne (fieldRs w) (fieldRt w) (fieldImm16 w))
  | addiu (ho : fieldOp w = opAddiu) : Decodes w (.addiu (fieldRs w) (fieldRt w) (fieldImm16 w))
  | andi (ho : fieldOp w = opAndi) : Decodes w (.andi (fieldRs w) (fieldRt w) (fieldImm16 w))
  | ori (ho : fieldOp w = opOri) : Decodes w (.ori (fieldRs w) (fieldRt w) (fieldImm16 w))
  | lui (ho : fieldOp w = opLui) : Decodes w (.lui (fieldRs w) (fieldRt w) (fieldImm16 w))
  | lw (ho : fieldOp w = opLw) : Decodes w (.lw (fieldRs w) (fieldRt w) (fieldImm16 w))
  | sw (ho : fieldOp w = opSw) : Decodes w (.sw (fieldRs w) (fieldRt w) (fieldImm16 w))

/-- Inversion of the register-format decoder. -/
theorem decodes_of_decodeRegister {w : Word} {i : Instr} (h0 : w ≠ 0) (ho : fieldOp w = opRegister)
    (h : decodeRegister w = .ok i) : Decodes w i := by
  simp only [decodeRegister] at h
  split_ifs at h with hf hf hf hf hf hf hf hf <;> cases h
  · exact .sll h0 ho hf
  · exact .srl h0 ho hf
  · exact .jr h0 ho hf
  · exact .addu h0 ho hf
  · exact .subu h0 ho hf
  · exact .and h0 ho hf
  · exact .or h0 ho hf
  · exact .slt h0 ho hf

/-- Inversion of the decoder. -/
theorem decodes_of_decode {w : Word} {i : Instr} (h : decode w = .ok i) : Decodes w i := by
  by_cases h0 : w = 0
  · rw [decode, if_pos h0] at h
    cases h; exact .halt h0
  · rw [decode, if_neg h0] at h
    simp only [decodeNonzero] at h
    by_cases hr : fieldOp w = opRegister
    · rw [if_pos hr] at h
      exact decodes_of_decodeRegister h0 hr h
    rw [if_neg hr] at h
    by_cases ho : fieldOp w = opJ
    · rw [if_pos ho] at h
      cases h; exact .j ho
    rw [if_neg ho] at h
    clear ho
    by_cases ho : fieldOp w = opJal
    · rw [if_pos ho] at h
      cases h; exact .jal ho
    rw [if_neg ho] at h
    clear ho
    by_cases ho : fieldOp w = opBeq
    · rw [if_pos ho] at h
      cases h; exact .beq ho
    rw [if_neg ho] at h
    clear ho
    by_cases ho : fieldOp w = opBne
    · rw [if_pos ho] at h
      cases h; exact .bne ho
    rw [if_neg ho] at h
    clear ho
    by_cases ho : fieldOp w = opAddiu
    · rw [if_pos ho] at h
      cases h; exact .addiu ho
    rw [if_neg ho] at h
    clear ho
    by_cases ho : fieldOp w = opAndi
    · rw [if_pos ho] at h
      cases h; exact .andi ho
    rw [if_neg ho] at h
    clear ho
    by_cases ho : fieldOp w = opOri
    · rw [if_pos ho] at h
      cases h; exact .ori ho
    rw [if_neg ho] at h
    clear ho
    by_cases ho : fieldOp w = opLui
    · rw [if_pos ho] at h
      cases h; exact .lui ho
    rw [if_neg ho] at h
    clear ho
    by_cases ho : fieldOp w = opLw
    · rw [if_pos ho] at h
      cases h; exact .lw ho
    rw [if_neg ho] at h
    clear ho
    by_cases ho : fieldOp w = opSw
    · rw [if_pos ho] at h
      cases h; exact .sw ho
    rw [if_neg ho] at h
    clear ho
    cases h

/-- The guards suffice: the decoder accepts every word that meets them. -/
theorem decode_of_decodes {w : Word} {i : Instr} (h : Decodes w i) : decode w = .ok i := by
  cases h with
  | halt h0 => subst h0; rfl
  | sll h0 ho hf => simp only [decode, if_neg h0, decodeNonzero, if_pos ho, decodeRegister, hf]; rfl
  | srl h0 ho hf => simp only [decode, if_neg h0, decodeNonzero, if_pos ho, decodeRegister, hf]; rfl
  | jr h0 ho hf => simp only [decode, if_neg h0, decodeNonzero, if_pos ho, decodeRegister, hf]; rfl
  | addu h0 ho hf => simp only [decode, if_neg h0, decodeNonzero, if_pos ho, decodeRegister, hf]; rfl
  | subu h0 ho hf => simp only [decode, if_neg h0, decodeNonzero, if_pos ho, decodeRegister, hf]; rfl
  | and h0 ho hf => simp only [decode, if_neg h0, decodeNonzero, if_pos ho, decodeRegister, hf]; rfl
  | or h0 ho hf => simp only [decode, if_neg h0, decodeNonzero, if_pos ho, decodeRegister, hf]; rfl
  | slt h0 ho hf => simp only [decode, if_neg h0, decodeNonzero, if_pos ho, decodeRegister, hf]; rfl
  | j ho => simp only [decode, if_neg (ne_zero_of_fieldOp (ho ▸ by decide : fieldOp w ≠ 0)), decodeNonzero, ho]; rfl
  | jal ho => simp only [decode, if_neg (ne_zero_of_fieldOp (ho ▸ by decide : fieldOp w ≠ 0)), decodeNonzero, ho]; rfl
  | beq ho => simp only [decode, if_neg (ne_zero_of_fieldOp (ho ▸ by decide : fieldOp w ≠ 0)), decodeNonzero, ho]; rfl
  | bne ho => simp only [decode, if_neg (ne_zero_of_fieldOp (ho ▸ by decide : fieldOp w ≠ 0)), decodeNonzero, ho]; rfl
  | addiu ho => simp only [decode, if_neg (ne_zero_of_fieldOp (ho ▸ by decide : fieldOp w ≠ 0)), decodeNonzero, ho]; rfl
  | andi ho => simp only [decode, if_neg (ne_zero_of_fieldOp (ho ▸ by decide : fieldOp w ≠ 0)), decodeNonzero, ho]; rfl
  | ori ho => simp only [decode, if_neg (ne_zero_of_fieldOp (ho ▸ by decide : fieldOp w ≠ 0)), decodeNonzero, ho]; rfl
  | lui ho => simp only [decode, if_neg (ne_zero_of_fieldOp (ho ▸ by decide : fieldOp w ≠ 0)), decodeNonzero, ho]; rfl
  | lw ho => simp only [decode, if_neg (ne_zero_of_fieldOp (ho ▸ by decide : fieldOp w ≠ 0)), decodeNonzero, ho]; rfl
  | sw ho => simp only [decode, if_neg (ne_zero_of_fieldOp (ho ▸ by decide : fieldOp w ≠ 0)), decodeNonzero, ho]; rfl

theorem decode_eq_ok_iff {w : Word} {i : Instr} : decode w = .ok i ↔ Decodes w i :=
  ⟨decodes_of_decode, decode_of_decodes⟩

/-- The decoder rejects exactly the words that meet no guard. -/
theorem decode_error_iff {w : Word} : (∃ e, decode w = .error e) ↔ ∀ i, ¬ Decodes w i := by
  constructor
  · rintro ⟨e, he⟩ i hi
    rw [decode_of_decodes hi] at he; cases he
  · intro h
    cases hd : decode w with
    | error e => exact ⟨e, rfl⟩
    | ok i => exact absurd (decodes_of_decode hd) (h i)

end Sys2Proof
end

