-- ==== Sys2Proof/Laws/Memory.lean ====
section
/-! SUPPORT. The laws of the memory image (spec/20_memory.md R36 to R38): read after write, and the canonical form kept. -/

namespace Sys2Proof.Machine

@[simp] theorem read_nil (a : Nat) : Memory.read [] a = unlistedWord := rfl

theorem read_cons (c : MemCell) (m : Memory) (a : Nat) :
    Memory.read (c :: m) a = if c.1 = a then c.2 else Memory.read m a := rfl

/-- An address no cell lists reads as `unlistedWord`. -/
theorem read_unlisted {m : Memory} {a : Nat} (h : ∀ c ∈ m, c.1 ≠ a) : Memory.read m a = unlistedWord := by
  induction m with
  | nil => rfl
  | cons c rest ih =>
    rw [read_cons, if_neg (h c (by simp))]
    exact ih fun d hd => h d (by simp [hd])

/-- Removing the cells of one address leaves every other address as it was. -/
theorem read_filter_ne (m : Memory) {a b : Nat} (h : b ≠ a) :
    Memory.read (m.filter (fun c => c.1 != a)) b = Memory.read m b := by
  induction m with
  | nil => rfl
  | cons c rest ih =>
    by_cases hc : c.1 = a
    · rw [List.filter_cons_of_neg (by simp [hc]), ih, read_cons, if_neg (by omega)]
    · rw [List.filter_cons_of_pos (by simp [hc]), read_cons, read_cons, ih]

/-- Removing the cells of an address makes it read as `unlistedWord`. -/
theorem read_filter_self (m : Memory) (a : Nat) :
    Memory.read (m.filter (fun c => c.1 != a)) a = unlistedWord :=
  read_unlisted fun c hc => by simpa using (List.mem_filter.1 hc).2

theorem mem_insertCell {m : Memory} {a : Nat} {v : Word} {c : MemCell} :
    c ∈ m.insertCell a v ↔ c = (a, v) ∨ c ∈ m := by
  induction m with
  | nil => simp [Memory.insertCell]
  | cons d rest ih =>
    unfold Memory.insertCell
    split
    · simp
    · simp [ih, or_left_comm]

/-- Reading after a cell is put into a memory that does not list its address. -/
theorem read_insertCell {m : Memory} {a : Nat} (v : Word) (b : Nat) (h : ∀ c ∈ m, c.1 ≠ a) :
    Memory.read (m.insertCell a v) b = if b = a then v else Memory.read m b := by
  induction m with
  | nil => simp [Memory.insertCell, read_cons, eq_comm]
  | cons d rest ih =>
    have hd := h d (by simp)
    unfold Memory.insertCell
    split
    · simp [read_cons, eq_comm]
    · rw [read_cons, ih fun c hc => h c (by simp [hc]), read_cons]
      split
      · rw [if_neg (by omega)]
      · rfl

theorem filter_unlists (m : Memory) (a : Nat) : ∀ c ∈ m.filter (fun c => c.1 != a), c.1 ≠ a :=
  fun c hc => by simpa using (List.mem_filter.1 hc).2

/-- Read after write (R37, R38): the written word at its address, the old word everywhere else. -/
theorem read_write (m : Memory) (a : Nat) (v : Word) (b : Nat) :
    Memory.read (m.write a v) b = if b = a then v else Memory.read m b := by
  unfold Memory.write
  by_cases hv : v = unlistedWord
  · rw [if_pos hv]
    split
    · next h => subst h; rw [read_filter_self, hv]
    · next h => exact read_filter_ne m h
  · rw [if_neg hv, read_insertCell v b (filter_unlists m a)]
    split
    · rfl
    · next h => exact read_filter_ne m h

@[simp] theorem read_write_same (m : Memory) (a : Nat) (v : Word) : Memory.read (m.write a v) a = v := by
  simp [read_write]

theorem read_write_other (m : Memory) {a b : Nat} (v : Word) (h : b ≠ a) :
    Memory.read (m.write a v) b = Memory.read m b := by
  simp [read_write, h]

/-- A cell of a written memory is the written one or an old one of another address. -/
theorem mem_write {m : Memory} {a : Nat} {v : Word} {c : MemCell} (h : c ∈ m.write a v) :
    (c = (a, v) ∧ v ≠ unlistedWord) ∨ (c ∈ m ∧ c.1 ≠ a) := by
  unfold Memory.write at h
  by_cases hv : v = unlistedWord
  · rw [if_pos hv] at h
    exact .inr ⟨(List.mem_filter.1 h).1, filter_unlists m a c h⟩
  · rw [if_neg hv] at h
    rcases mem_insertCell.1 h with h | h
    · exact .inl ⟨h, hv⟩
    · exact .inr ⟨(List.mem_filter.1 h).1, filter_unlists m a c h⟩

theorem pairwise_insertCell {m : Memory} {a : Nat} (v : Word) (hp : m.Pairwise (fun c d => c.1 < d.1))
    (ha : ∀ c ∈ m, c.1 ≠ a) : (m.insertCell a v).Pairwise (fun c d => c.1 < d.1) := by
  induction m with
  | nil => simp [Memory.insertCell]
  | cons d rest ih =>
    have hd := ha d (by simp)
    obtain ⟨h1, h2⟩ := List.pairwise_cons.1 hp
    unfold Memory.insertCell
    split
    · next h =>
      refine List.pairwise_cons.2 ⟨fun c hc => ?_, hp⟩
      rcases List.mem_cons.1 hc with rfl | hc
      · exact h
      · exact Nat.lt_trans h (h1 c hc)
    · refine List.pairwise_cons.2 ⟨fun c hc => ?_, ih h2 fun c hc => ha c (by simp [hc])⟩
      rcases mem_insertCell.1 hc with rfl | hc
      · show d.1 < a
        omega
      · exact h1 c hc

/-- In a sorted memory the first cell's address is below every other, so an address below it is unlisted. -/
theorem read_below_head {c : MemCell} {rest : Memory} (hp : (c :: rest).Pairwise (fun c d => c.1 < d.1))
    {a : Nat} (h : a < c.1) : Memory.read (c :: rest) a = unlistedWord :=
  read_unlisted fun d hd => by
    rcases List.mem_cons.1 hd with rfl | hd
    · omega
    · have := List.rel_of_pairwise_cons hp hd
      omega

/-- Equal memories are equal data: two canonical memories that read alike everywhere are the same list. -/
theorem eq_of_read_eq {m n : Memory} (hm : m.wf) (hn : n.wf) (h : ∀ a, m.read a = n.read a) : m = n := by
  induction m generalizing n with
  | nil =>
    cases n with
    | nil => rfl
    | cons d rest =>
      have := h d.1
      rw [read_nil, read_cons, if_pos rfl] at this
      exact absurd this.symm (hn.2 d (by simp))
  | cons c rest ih =>
    cases n with
    | nil =>
      have := h c.1
      rw [read_nil, read_cons, if_pos rfl] at this
      exact absurd this (hm.2 c (by simp))
    | cons d rest' =>
      have hkey : c.1 = d.1 := by
        rcases Nat.lt_trichotomy c.1 d.1 with hlt | heq | hlt
        · have := h c.1
          rw [read_below_head hn.1 hlt, read_cons, if_pos rfl] at this
          exact absurd this (hm.2 c (by simp))
        · exact heq
        · have := h d.1
          rw [read_below_head hm.1 hlt, read_cons, if_pos rfl] at this
          exact absurd this.symm (hn.2 d (by simp))
      have hval : c.2 = d.2 := by
        have := h c.1
        rwa [read_cons, read_cons, if_pos rfl, if_pos hkey.symm] at this
      obtain ⟨hm1, hm2⟩ := List.pairwise_cons.1 hm.1
      obtain ⟨hn1, hn2⟩ := List.pairwise_cons.1 hn.1
      have htail : rest = rest' := by
        refine ih ⟨hm2, fun e he => hm.2 e (by simp [he])⟩ ⟨hn2, fun e he => hn.2 e (by simp [he])⟩ fun a => ?_
        by_cases ha : c.1 = a
        · rw [read_unlisted fun e he => ?_, read_unlisted fun e he => ?_]
          · have := hn1 e he; omega
          · have := hm1 e he; omega
        · have := h a
          rwa [read_cons, read_cons, if_neg ha, if_neg (by omega)] at this
      rw [htail, Prod.ext hkey hval]

/-- Reset memory is canonical (R25). -/
theorem wf_resetWith (c : Config) : (State.resetWith c).mem.wf := ⟨List.Pairwise.nil, fun _ h => nomatch h⟩

/-- Every write keeps the canonical form. -/
theorem wf_write {m : Memory} (h : m.wf) (a : Nat) (v : Word) : (m.write a v).wf := by
  refine ⟨?_, fun c hc => ?_⟩
  · unfold Memory.write
    split
    · exact h.1.filter _
    · exact pairwise_insertCell v (h.1.filter _) (filter_unlists m a)
  · rcases mem_write hc with ⟨rfl, hv⟩ | ⟨hm, _⟩
    · exact hv
    · exact h.2 c hm

/-- A write inside the image keeps every listed address inside it. -/
theorem inImage_write {c : Config} {m : Memory} (h : m.InImage c) {a : Nat} (v : Word)
    (ha : a % 4 = 0 ∧ c.ibase ≤ a ∧ a < c.memend) : (m.write a v).InImage c := fun e he => by
  rcases mem_write he with ⟨rfl, _⟩ | ⟨hm, _⟩
  · exact ha
  · exact h e hm

/-- A valid data address is a word address of the image. -/
theorem dataValid_inImage {c : Config} {a : Word} (h : dataValid c a) :
    a.toNat % 4 = 0 ∧ c.ibase ≤ a.toNat ∧ a.toNat < c.memend := by
  have : c.dbase = c.ibase + c.isize := rfl
  exact ⟨h.1, by omega, h.2.2⟩

/-- A valid data address is no valid fetch address (R32). -/
theorem dataValid_not_fetchValid {c : Config} {a : Word} (h : dataValid c a) : ¬ fetchValid c a :=
  fun hf => absurd hf.2.2 (Nat.not_lt.2 h.2.1)

@[simp] theorem memRead_memWrite_same (s : State) (a v : Word) : (s.memWrite a v).memRead a = v :=
  read_write_same _ _ _

theorem memRead_memWrite_other (s : State) {a b : Word} (v : Word) (h : b ≠ a) :
    (s.memWrite a v).memRead b = s.memRead b :=
  read_write_other _ v fun e => h (BitVec.eq_of_toNat_eq e)

/-! The loader's writes (R184). -/

theorem wf_storeWords {m : Memory} (h : m.wf) (a : Nat) (ws : List Word) : (m.storeWords a ws).wf := by
  induction ws generalizing m a with
  | nil => exact h
  | cons w rest ih => exact ih (wf_write h a w) (a + 4)

/-- Storing words leaves every address below the first one alone. -/
theorem read_storeWords_below (m : Memory) {a b : Nat} (ws : List Word) (h : b < a) :
    (m.storeWords a ws).read b = m.read b := by
  induction ws generalizing m a with
  | nil => rfl
  | cons w rest ih =>
    rw [Memory.storeWords, ih _ (by omega), read_write_other _ _ (by omega)]

end Sys2Proof.Machine
end

