-- ==== Sys2Proof/Laws/PerInstr.lean ====
section
/-! SUPPORT. The family OpcodeField: the opcode field of an instruction's word is the number R57 gives it
(spec/30_encoding.md R51, R57). -/

namespace Sys2Proof.Laws.OpcodeField

/-- The opcode number R57 gives an instruction; HALT is the zero word, whose opcode field is 0. -/
def opcodeOf (i : Instr) : BitVec 6 :=
  match i with
  | .halt => opRegister
  | .addu _ _ _ _ => opRegister
  | .subu _ _ _ _ => opRegister
  | .and _ _ _ _ => opRegister
  | .or _ _ _ _ => opRegister
  | .slt _ _ _ _ => opRegister
  | .sll _ _ _ _ => opRegister
  | .srl _ _ _ _ => opRegister
  | .jr _ _ _ _ => opRegister
  | .addiu _ _ _ => opAddiu
  | .andi _ _ _ => opAndi
  | .ori _ _ _ => opOri
  | .lui _ _ _ => opLui
  | .beq _ _ _ => opBeq
  | .bne _ _ _ => opBne
  | .lw _ _ _ => opLw
  | .sw _ _ _ => opSw
  | .j _ => opJ
  | .jal _ => opJal

/-- The encoded word carries the instruction's opcode number in bits 31 to 26. -/
def Statement (i : Instr) : Prop := fieldOp (encode i) = opcodeOf i

theorem halt : Statement .halt := rfl
theorem addu (rs rt rd : RegIdx) (sh : Shamt) : Statement (.addu rs rt rd sh) := fieldOp_registerWord _ _ _ _ _
theorem subu (rs rt rd : RegIdx) (sh : Shamt) : Statement (.subu rs rt rd sh) := fieldOp_registerWord _ _ _ _ _
theorem and (rs rt rd : RegIdx) (sh : Shamt) : Statement (.and rs rt rd sh) := fieldOp_registerWord _ _ _ _ _
theorem or (rs rt rd : RegIdx) (sh : Shamt) : Statement (.or rs rt rd sh) := fieldOp_registerWord _ _ _ _ _
theorem slt (rs rt rd : RegIdx) (sh : Shamt) : Statement (.slt rs rt rd sh) := fieldOp_registerWord _ _ _ _ _
theorem sll (rs rt rd : RegIdx) (sh : Shamt) : Statement (.sll rs rt rd sh) := fieldOp_registerWord _ _ _ _ _
theorem srl (rs rt rd : RegIdx) (sh : Shamt) : Statement (.srl rs rt rd sh) := fieldOp_registerWord _ _ _ _ _
theorem jr (rs rt rd : RegIdx) (sh : Shamt) : Statement (.jr rs rt rd sh) := fieldOp_registerWord _ _ _ _ _
theorem addiu (rs rt : RegIdx) (imm : Imm16) : Statement (.addiu rs rt imm) := fieldOp_immediateWord _ _ _ _
theorem andi (rs rt : RegIdx) (imm : Imm16) : Statement (.andi rs rt imm) := fieldOp_immediateWord _ _ _ _
theorem ori (rs rt : RegIdx) (imm : Imm16) : Statement (.ori rs rt imm) := fieldOp_immediateWord _ _ _ _
theorem lui (rs rt : RegIdx) (imm : Imm16) : Statement (.lui rs rt imm) := fieldOp_immediateWord _ _ _ _
theorem beq (rs rt : RegIdx) (imm : Imm16) : Statement (.beq rs rt imm) := fieldOp_immediateWord _ _ _ _
theorem bne (rs rt : RegIdx) (imm : Imm16) : Statement (.bne rs rt imm) := fieldOp_immediateWord _ _ _ _
theorem lw (rs rt : RegIdx) (imm : Imm16) : Statement (.lw rs rt imm) := fieldOp_immediateWord _ _ _ _
theorem sw (rs rt : RegIdx) (imm : Imm16) : Statement (.sw rs rt imm) := fieldOp_immediateWord _ _ _ _
theorem j (t : Target26) : Statement (.j t) := fieldOp_jumpWord _ _
theorem jal (t : Target26) : Statement (.jal t) := fieldOp_jumpWord _ _

end Sys2Proof.Laws.OpcodeField
end

