-- ==== Sys2Proof/Laws/State.lean ====
section
/-! SUPPORT. What each update of the state leaves in each field. -/

namespace Sys2Proof.Machine

/-! `enterHalt` -/

@[simp] theorem enterHalt_cfg (s : State) (r : HaltRecord) : (s.enterHalt r).cfg = s.cfg := rfl
@[simp] theorem enterHalt_regs (s : State) (r : HaltRecord) : (s.enterHalt r).regs = s.regs := rfl
@[simp] theorem enterHalt_pc (s : State) (r : HaltRecord) : (s.enterHalt r).pc = s.pc := rfl
@[simp] theorem enterHalt_mem (s : State) (r : HaltRecord) : (s.enterHalt r).mem = s.mem := rfl
@[simp] theorem enterHalt_status (s : State) (r : HaltRecord) : (s.enterHalt r).status = .halted := rfl
@[simp] theorem enterHalt_halt (s : State) (r : HaltRecord) : (s.enterHalt r).halt = some r := rfl
@[simp] theorem enterHalt_report (s : State) (r : HaltRecord) : (s.enterHalt r).report = s.report := rfl
@[simp] theorem enterHalt_readReg (s : State) (r : HaltRecord) (i : RegIdx) :
    (s.enterHalt r).readReg i = s.readReg i := rfl
@[simp] theorem enterHalt_memRead (s : State) (r : HaltRecord) (a : Word) :
    (s.enterHalt r).memRead a = s.memRead a := rfl

/-! `complete` -/

@[simp] theorem complete_cfg (s : State) (cr cm npc) : (s.complete cr cm npc).cfg = s.cfg := rfl
@[simp] theorem complete_regs (s : State) (cr cm npc) : (s.complete cr cm npc).regs = s.regs := rfl
@[simp] theorem complete_pc (s : State) (cr cm npc) : (s.complete cr cm npc).pc = npc := rfl
@[simp] theorem complete_mem (s : State) (cr cm npc) : (s.complete cr cm npc).mem = s.mem := rfl
@[simp] theorem complete_status (s : State) (cr cm npc) : (s.complete cr cm npc).status = s.status := rfl
@[simp] theorem complete_halt (s : State) (cr cm npc) : (s.complete cr cm npc).halt = s.halt := rfl
@[simp] theorem complete_report (s : State) (cr cm npc) :
    (s.complete cr cm npc).report = some ⟨cr, cm, npc⟩ := rfl
@[simp] theorem complete_readReg (s : State) (cr cm npc) (i : RegIdx) :
    (s.complete cr cm npc).readReg i = s.readReg i := rfl
@[simp] theorem complete_memRead (s : State) (cr cm npc) (a : Word) :
    (s.complete cr cm npc).memRead a = s.memRead a := rfl

/-! `memWrite` -/

@[simp] theorem memWrite_cfg (s : State) (a v : Word) : (s.memWrite a v).cfg = s.cfg := rfl
@[simp] theorem memWrite_regs (s : State) (a v : Word) : (s.memWrite a v).regs = s.regs := rfl
@[simp] theorem memWrite_pc (s : State) (a v : Word) : (s.memWrite a v).pc = s.pc := rfl
@[simp] theorem memWrite_mem (s : State) (a v : Word) : (s.memWrite a v).mem = s.mem.write a.toNat v := rfl
@[simp] theorem memWrite_status (s : State) (a v : Word) : (s.memWrite a v).status = s.status := rfl
@[simp] theorem memWrite_halt (s : State) (a v : Word) : (s.memWrite a v).halt = s.halt := rfl
@[simp] theorem memWrite_report (s : State) (a v : Word) : (s.memWrite a v).report = s.report := rfl
@[simp] theorem memWrite_readReg (s : State) (a v : Word) (i : RegIdx) :
    (s.memWrite a v).readReg i = s.readReg i := rfl

/-! `writeReg`: a discarded write leaves the state, any other changes `regs` alone. -/

/-- Every field but `regs` survives a register write, discarded or not. -/
theorem writeReg_eq (s : State) (i : RegIdx) (v : Word) :
    s.writeReg i v = { s with regs := (s.writeReg i v).regs } := by
  unfold State.writeReg; split <;> rfl

@[simp] theorem writeReg_cfg (s : State) (i : RegIdx) (v : Word) : (s.writeReg i v).cfg = s.cfg := by
  rw [writeReg_eq]
@[simp] theorem writeReg_pc (s : State) (i : RegIdx) (v : Word) : (s.writeReg i v).pc = s.pc := by
  rw [writeReg_eq]
@[simp] theorem writeReg_mem (s : State) (i : RegIdx) (v : Word) : (s.writeReg i v).mem = s.mem := by
  rw [writeReg_eq]
@[simp] theorem writeReg_status (s : State) (i : RegIdx) (v : Word) : (s.writeReg i v).status = s.status := by
  rw [writeReg_eq]
@[simp] theorem writeReg_halt (s : State) (i : RegIdx) (v : Word) : (s.writeReg i v).halt = s.halt := by
  rw [writeReg_eq]
@[simp] theorem writeReg_report (s : State) (i : RegIdx) (v : Word) : (s.writeReg i v).report = s.report := by
  rw [writeReg_eq]
@[simp] theorem writeReg_memRead (s : State) (i : RegIdx) (v : Word) (a : Word) :
    (s.writeReg i v).memRead a = s.memRead a := by
  rw [writeReg_eq]; rfl

/-- A read after a register write: the written value at its index unless the write is discarded, the
old value everywhere else (R12, R139). -/
theorem readReg_writeReg (s : State) (i j : RegIdx) (v : Word) :
    (s.writeReg i v).readReg j = if j = i ∧ Config.discards s.cfg i = false then v else s.readReg j := by
  unfold State.writeReg
  cases h : Config.discards s.cfg i
  · simp [State.readReg, Vector.getElem_set, BitVec.toNat_inj, eq_comm]
  · simp

/-- Only index 0 is ever discarded (R139). -/
theorem discards_ne_zero (c : Config) {i : RegIdx} (h : i ≠ 0) : Config.discards c i = false := by
  simp only [Config.discards, Bool.and_eq_false_imp, beq_eq_false_iff_ne]
  exact fun _ => h

/-- Under the decided value of `REG0_HARDWIRED` no write is discarded (R12). -/
theorem discards_ordinary {c : Config} (h : c.reg0Hardwired = false) (i : RegIdx) :
    Config.discards c i = false := by
  simp [Config.discards, h]

/-! `writeBack` is a register write and then the end of the step. -/

@[simp] theorem writeBack_cfg (s : State) (d : RegIdx) (v npc : Word) : (s.writeBack d v npc).cfg = s.cfg := by
  simp [State.writeBack]
@[simp] theorem writeBack_pc (s : State) (d : RegIdx) (v npc : Word) : (s.writeBack d v npc).pc = npc := by
  simp [State.writeBack]
@[simp] theorem writeBack_mem (s : State) (d : RegIdx) (v npc : Word) : (s.writeBack d v npc).mem = s.mem := by
  simp [State.writeBack]
@[simp] theorem writeBack_status (s : State) (d : RegIdx) (v npc : Word) :
    (s.writeBack d v npc).status = s.status := by
  simp [State.writeBack]
@[simp] theorem writeBack_halt (s : State) (d : RegIdx) (v npc : Word) : (s.writeBack d v npc).halt = s.halt := by
  simp [State.writeBack]
@[simp] theorem writeBack_report (s : State) (d : RegIdx) (v npc : Word) :
    (s.writeBack d v npc).report = some ⟨some d, none, npc⟩ := by
  simp [State.writeBack]
@[simp] theorem writeBack_memRead (s : State) (d : RegIdx) (v npc a : Word) :
    (s.writeBack d v npc).memRead a = s.memRead a := by
  simp [State.writeBack]

/-- A read after a write-back. -/
theorem readReg_writeBack (s : State) (i j : RegIdx) (v npc : Word) :
    (s.writeBack i v npc).readReg j = if j = i ∧ Config.discards s.cfg i = false then v else s.readReg j := by
  rw [State.writeBack, complete_readReg, readReg_writeReg]

/-! `accessData` -/

theorem accessData_valid {s : State} {ea : Word} (h : dataValid s.cfg ea) (t : State) :
    s.accessData ea t = t := if_pos h

theorem accessData_invalid {s : State} {ea : Word} (h : ¬ dataValid s.cfg ea) (t : State) :
    s.accessData ea t = s.enterHalt (.memoryAccess s.pc ea) := if_neg h

/-! Reset, one lemma per field (R25). -/

@[simp] theorem resetWith_cfg (c : Config) : (State.resetWith c).cfg = c := rfl
@[simp] theorem resetWith_pc (c : Config) : (State.resetWith c).pc = BitVec.ofNat 32 c.ibase := rfl
@[simp] theorem resetWith_mem (c : Config) : (State.resetWith c).mem = [] := rfl
@[simp] theorem resetWith_status (c : Config) : (State.resetWith c).status = .running := rfl
@[simp] theorem resetWith_halt (c : Config) : (State.resetWith c).halt = none := rfl
@[simp] theorem resetWith_report (c : Config) : (State.resetWith c).report = none := rfl

theorem resetWith_readReg (c : Config) (i : RegIdx) :
    (State.resetWith c).readReg i = if i = 29 ∧ c.seedSp = true then BitVec.ofNat 32 c.memend else 0 := by
  have h : (29 = i.toNat) ↔ i = 29 := by
    rw [← BitVec.toNat_inj]; exact eq_comm
  simp only [State.readReg, State.resetWith, Vector.getElem_set, Vector.getElem_replicate, h]
  by_cases hi : i = 29 <;> cases c.seedSp <;> simp [hi]

end Sys2Proof.Machine
end

