-- ==== Sys2Proof/Laws/Step.lean ====
section
/-! SUPPORT. What each meaning answers, and what a step can do, said once. -/

namespace Sys2Proof.Machine

/-! One equation per instruction: the next state `exec` answers. -/

section Answers

variable (s : State) (rs rt rd : RegIdx) (sh : Shamt) (imm : Imm16) (tgt : Target26)

theorem exec_halt : exec .halt s = .next (s.enterHalt (.zeroWord s.pc)) := rfl
theorem exec_addu : exec (.addu rs rt rd sh) s = .next (s.writeBack rd (s.readReg rs + s.readReg rt) s.pcPlus4) := rfl
theorem exec_subu : exec (.subu rs rt rd sh) s = .next (s.writeBack rd (s.readReg rs - s.readReg rt) s.pcPlus4) := rfl
theorem exec_and : exec (.and rs rt rd sh) s = .next (s.writeBack rd (s.readReg rs &&& s.readReg rt) s.pcPlus4) := rfl
theorem exec_or : exec (.or rs rt rd sh) s = .next (s.writeBack rd (s.readReg rs ||| s.readReg rt) s.pcPlus4) := rfl
theorem exec_slt : exec (.slt rs rt rd sh) s =
    .next (s.writeBack rd (if differenceIsNegative (s.readReg rs) (s.readReg rt) then 1 else 0) s.pcPlus4) := rfl
theorem exec_sll : exec (.sll rs rt rd sh) s = .next (s.writeBack rd (shiftLeft (s.readReg rt) sh) s.pcPlus4) := rfl
theorem exec_srl : exec (.srl rs rt rd sh) s = .next (s.writeBack rd (shiftRight (s.readReg rt) sh) s.pcPlus4) := rfl
theorem exec_jr : exec (.jr rs rt rd sh) s = .next (s.complete none none (s.readReg rs)) := rfl
theorem exec_addiu : exec (.addiu rs rt imm) s = .next (s.writeBack rt (s.readReg rs + immediate imm) s.pcPlus4) := rfl
theorem exec_andi : exec (.andi rs rt imm) s =
    .next (s.writeBack rt (s.readReg rs &&& logicalImmediate s.cfg imm) s.pcPlus4) := rfl
theorem exec_ori : exec (.ori rs rt imm) s =
    .next (s.writeBack rt (s.readReg rs ||| logicalImmediate s.cfg imm) s.pcPlus4) := rfl
theorem exec_lui : exec (.lui rs rt imm) s = .next (s.writeBack rt (immediate imm <<< 16) s.pcPlus4) := rfl
theorem exec_beq : exec (.beq rs rt imm) s = .next (s.complete none none (branchTarget s.pc
    (if differenceIsZero (s.readReg rs) (s.readReg rt) then branchOffset imm else 0))) := rfl
theorem exec_bne : exec (.bne rs rt imm) s = .next (s.complete none none (branchTarget s.pc
    (if !differenceIsZero (s.readReg rs) (s.readReg rt) then branchOffset imm else 0))) := rfl
theorem exec_j : exec (.j tgt) s = .next (s.complete none none (jumpTarget s.pc tgt)) := rfl
theorem exec_jal : exec (.jal tgt) s =
    .next (s.writeBack linkRegister s.pcPlus4 (jumpTarget s.pc tgt)) := rfl
theorem exec_lw : exec (.lw rs rt imm) s = .next (s.accessData (s.effectiveAddress rs imm)
    (s.writeBack rt (s.memRead (s.effectiveAddress rs imm)) s.pcPlus4)) := rfl
theorem exec_sw : exec (.sw rs rt imm) s = .next (s.accessData (s.effectiveAddress rs imm)
    ((s.memWrite (s.effectiveAddress rs imm) (s.readReg rt)).complete none (some (s.effectiveAddress rs imm))
      s.pcPlus4)) := rfl

end Answers

/-- All that a meaning can do to a state: a register write-back, a bare change of pc, a store to a valid
data address, or one of the two halts an instruction raises. -/
inductive Effect (i : Instr) (s : State) : State → Prop
  | writeBack (dest : RegIdx) (val npc : Word) : Effect i s (s.writeBack dest val npc)
  | transfer (npc : Word) : Effect i s (s.complete none none npc)
  | store (rs rt : RegIdx) (imm16 : Imm16) (hi : i = .sw rs rt imm16)
      (hv : dataValid s.cfg (s.effectiveAddress rs imm16)) :
      Effect i s ((s.memWrite (s.effectiveAddress rs imm16) (s.readReg rt)).complete none
        (some (s.effectiveAddress rs imm16)) s.pcPlus4)
  | zeroWord (hi : i = .halt) : Effect i s (s.enterHalt (.zeroWord s.pc))
  | badAddress (rs rt : RegIdx) (imm16 : Imm16) (hi : i = .lw rs rt imm16 ∨ i = .sw rs rt imm16)
      (hv : ¬ dataValid s.cfg (s.effectiveAddress rs imm16)) :
      Effect i s (s.enterHalt (.memoryAccess s.pc (s.effectiveAddress rs imm16)))

/-- Inversion of `exec`: the next state it answers is one of the effects. -/
theorem exec_effect {i : Instr} {s t : State} (h : exec i s = .next t) : Effect i s t := by
  cases i with
  | halt => cases h; exact .zeroWord rfl
  | lw rs rt imm =>
    rw [exec_lw] at h
    by_cases hv : dataValid s.cfg (s.effectiveAddress rs imm)
    · rw [accessData_valid hv] at h; cases h; exact .writeBack ..
    · rw [accessData_invalid hv] at h; cases h; exact .badAddress rs rt imm (.inl rfl) hv
  | sw rs rt imm =>
    rw [exec_sw] at h
    by_cases hv : dataValid s.cfg (s.effectiveAddress rs imm)
    · rw [accessData_valid hv] at h; cases h; exact .store rs rt imm rfl hv
    · rw [accessData_invalid hv] at h; cases h; exact .badAddress rs rt imm (.inr rfl) hv
  | beq rs rt imm => cases h; exact .transfer _
  | bne rs rt imm => cases h; exact .transfer _
  | j tgt => cases h; exact .transfer _
  | jr rs rt rd sh => cases h; exact .transfer _
  | jal tgt => cases h; exact .writeBack ..
  | addu rs rt rd sh => cases h; exact .writeBack ..
  | subu rs rt rd sh => cases h; exact .writeBack ..
  | and rs rt rd sh => cases h; exact .writeBack ..
  | or rs rt rd sh => cases h; exact .writeBack ..
  | slt rs rt rd sh => cases h; exact .writeBack ..
  | sll rs rt rd sh => cases h; exact .writeBack ..
  | srl rs rt rd sh => cases h; exact .writeBack ..
  | addiu rs rt imm => cases h; exact .writeBack ..
  | andi rs rt imm => cases h; exact .writeBack ..
  | ori rs rt imm => cases h; exact .writeBack ..
  | lui rs rt imm => cases h; exact .writeBack ..

/-! Fetch and decode (R34, R68). -/

theorem fetchWord_valid {s : State} (h : fetchValid s.cfg s.pc) : s.fetchWord = .ok (s.memRead s.pc) := if_pos h

theorem fetchWord_invalid {s : State} (h : ¬ fetchValid s.cfg s.pc) : s.fetchWord = .error (.fetchFault s.pc) :=
  if_neg h

theorem fetchInstr_ok {s : State} {i : Instr} (hv : fetchValid s.cfg s.pc)
    (hd : decode (s.memRead s.pc) = .ok i) : s.fetchInstr = .ok i := by
  simp [State.fetchInstr, fetchWord_valid hv, hd]

theorem fetchInstr_illegal {s : State} {e : DecodeReject} (hv : fetchValid s.cfg s.pc)
    (hd : decode (s.memRead s.pc) = .error e) :
    s.fetchInstr = .error (.illegalInstruction s.pc (s.memRead s.pc)) := by
  simp [State.fetchInstr, fetchWord_valid hv, hd]

theorem fetchInstr_invalid {s : State} (hv : ¬ fetchValid s.cfg s.pc) :
    s.fetchInstr = .error (.fetchFault s.pc) := by
  simp [State.fetchInstr, fetchWord_invalid hv]

/-- All that a step can do (R140, R144), guards included. -/
inductive StepCase (s : State) : State → Prop
  | halted (hs : s.status = .halted) : StepCase s s
  | fetchFault (hs : s.status = .running) (hv : ¬ fetchValid s.cfg s.pc) :
      StepCase s (s.enterHalt (.fetchFault s.pc))
  | illegal (hs : s.status = .running) (hv : fetchValid s.cfg s.pc) (e : DecodeReject)
      (hd : decode (s.memRead s.pc) = .error e) :
      StepCase s (s.enterHalt (.illegalInstruction s.pc (s.memRead s.pc)))
  | run (hs : s.status = .running) (hv : fetchValid s.cfg s.pc) (i : Instr)
      (hd : decode (s.memRead s.pc) = .ok i) (t : State) (he : Effect i s t) : StepCase s t

/-- Inversion of `step`: it answers a next state only for a configuration of R6, and then by one of the
cases. -/
theorem step_cases {s t : State} (h : step s = .next t) : s.cfg.WF ∧ StepCase s t := by
  unfold step at h
  split at h
  · next hc =>
    refine ⟨hc, ?_⟩
    split at h
    · next hs => cases h; exact .halted hs
    · next hs =>
      by_cases hv : fetchValid s.cfg s.pc
      · cases hd : decode (s.memRead s.pc) with
        | ok i => rw [fetchInstr_ok hv hd] at h; exact .run hs hv i hd t (exec_effect h)
        | error e => rw [fetchInstr_illegal hv hd] at h; cases h; exact .illegal hs hv e hd
      · rw [fetchInstr_invalid hv] at h; cases h; exact .fetchFault hs hv
  · cases h

/-! Runs of many steps, one step at a time. -/

theorem run_succ_of_next {s u : State} (n : Nat) (h : step s = .next u) :
    core.run (n + 1) s = core.run n u := by
  have h' : core.step s = .next u := h
  simp only [Host.Core.run]
  rw [h']

theorem run_succ_inv {s t : State} {n : Nat} (h : core.run (n + 1) s = .next t) :
    ∃ u, step s = .next u ∧ core.run n u = .next t := by
  simp only [Host.Core.run] at h
  split at h
  · next u hu => exact ⟨u, hu, h⟩
  · cases h
  · cases h

end Sys2Proof.Machine
end

