-- ==== Sys2Proof/Machine/ByteView.lean ====
section
/-! DEFINITION. A byte view of the memory image for tools outside the block (spec/20_memory.md R39). The core has no
byte order; a tool that wants bytes brings its own `HOST_BYTE_ORDER`. Nothing in the machine uses this file (log 1). -/

namespace Sys2Proof.Machine

/-- `HOST_BYTE_ORDER`, a parameter of the tool and not of the core (R39, D10). -/
inductive HostByteOrder where
  | little
  | big
  deriving DecidableEq, Repr

/-- Byte `k` (0 to 3) of a word in a tool's byte order. -/
def wordByte (o : HostByteOrder) (w : Word) (k : Nat) : BitVec 8 :=
  match o with
  | .little => w.extractLsb' (8 * k) 8
  | .big => w.extractLsb' (8 * (3 - k)) 8

/-- The byte a tool sees at a byte address. -/
def Memory.byteAt (o : HostByteOrder) (m : Memory) (a : Nat) : BitVec 8 :=
  wordByte o (m.read (a - a % 4)) (a % 4)

/-- The image as the host's byte cells, zero bytes left out. -/
def Memory.hostCells (o : HostByteOrder) (m : Memory) : List Host.Cell :=
  m.flatMap (fun c => ([0, 1, 2, 3].map (fun k => (c.1 + k, wordByte o c.2 k))).filter (fun b => b.2 != 0))

end Sys2Proof.Machine
end

