-- ==== Sys2Proof/Tests/Slice0.lean ====
section
/-! SUPPORT. Tests of the model, and for each statement a concrete state that meets its hypotheses. The
expected results are those of spec/95_test_vectors.md, or worked out by hand from the rules named. -/

open Sys2Proof Sys2Proof.Machine

namespace Sys2Proof.Tests

/-- Registers set one after another. -/
def setRegs (s : State) (xs : List (RegIdx × Word)) : State := xs.foldl (fun s x => s.writeReg x.1 x.2) s

/-- A core built with `c`, freshly reset, with the word `w` at `IBASE` and some registers set. -/
def bootWith (c : Config) (w : Word) (xs : List (RegIdx × Word)) : State :=
  setRegs ((State.resetWith c).memWrite (BitVec.ofNat 32 c.ibase) w) xs

/-- The same under `CFG0`: the word stands at `0x00400000`. -/
def boot (w : Word) (xs : List (RegIdx × Word)) : State := bootWith Config.cfg0 w xs

/-- The next state, if the outcome is one. -/
def next? (o : Host.Outcome State Fault Refusal) : Option State :=
  match o with
  | .next t => some t
  | .fault _ => none
  | .refused _ => none

/-- One register and the report after one step. -/
def seen (s : State) (r : RegIdx) : Option (Word × Option Report) :=
  (next? (step s)).map (fun t => (t.readReg r, t.report))

/-- The halt record, pc and one register after one step. -/
def ended (s : State) (r : RegIdx) : Option (Option HaltRecord × Word × Word) :=
  (next? (step s)).map (fun t => (t.halt, t.pc, t.readReg r))

/-! Well-formedness: the one check refuses the SLL that would be the zero word. -/

theorem test_wellFormed_refuses_zero_sll : Instr.wellFormed (.sll 0 0 0 0) = false := by decide
theorem test_wellFormed_accepts_nonzero_sll : Instr.wellFormed (.sll 1 0 0 0) = true := by decide

/-! Decoding and encoding: the words of V-ENC, written field by field as R52 to R54 lay them out. -/

theorem test_decode_halt : decode 0 = .ok .halt ∧ encode .halt = 0 := ⟨rfl, rfl⟩
theorem test_decode_addu : decode 0b000000_00001_00010_00011_00000_100001 = .ok (.addu 1 2 3 0) ∧
    encode (.addu 1 2 3 0) = 0x00221821 := ⟨rfl, rfl⟩
theorem test_decode_subu : decode 0b000000_00001_00010_00011_00000_100011 = .ok (.subu 1 2 3 0) ∧
    encode (.subu 1 2 3 0) = 0x00221823 := ⟨rfl, rfl⟩
theorem test_decode_and : decode 0b000000_00001_00010_00011_00000_100100 = .ok (.and 1 2 3 0) ∧
    encode (.and 1 2 3 0) = 0x00221824 := ⟨rfl, rfl⟩
theorem test_decode_or : decode 0b000000_00001_00010_00011_00000_100101 = .ok (.or 1 2 3 0) ∧
    encode (.or 1 2 3 0) = 0x00221825 := ⟨rfl, rfl⟩
theorem test_decode_slt : decode 0b000000_00001_00010_00011_00000_101010 = .ok (.slt 1 2 3 0) ∧
    encode (.slt 1 2 3 0) = 0x0022182A := ⟨rfl, rfl⟩
theorem test_decode_sll : decode 0b000000_00000_00010_00011_00100_000000 = .ok (.sll 0 2 3 4) ∧
    encode (.sll 0 2 3 4) = 0x00021900 := ⟨rfl, rfl⟩
theorem test_decode_srl : decode 0b000000_00000_00010_00011_00100_000010 = .ok (.srl 0 2 3 4) ∧
    encode (.srl 0 2 3 4) = 0x00021902 := ⟨rfl, rfl⟩
theorem test_decode_jr : decode 0b000000_11111_00000_00000_00000_001000 = .ok (.jr 31 0 0 0) ∧
    encode (.jr 31 0 0 0) = 0x03E00008 := ⟨rfl, rfl⟩
theorem test_decode_addiu : decode 0b001001_00001_00010_1111111111111111 = .ok (.addiu 1 2 0xFFFF) ∧
    encode (.addiu 1 2 0xFFFF) = 0x2422FFFF := ⟨rfl, rfl⟩
theorem test_decode_andi : decode 0b001100_00001_00010_1000000000000001 = .ok (.andi 1 2 0x8001) ∧
    encode (.andi 1 2 0x8001) = 0x30228001 := ⟨rfl, rfl⟩
theorem test_decode_ori : decode 0b001101_00001_00010_1000000000000001 = .ok (.ori 1 2 0x8001) ∧
    encode (.ori 1 2 0x8001) = 0x34228001 := ⟨rfl, rfl⟩
theorem test_decode_lui : decode 0b001111_00000_00010_1000000000000001 = .ok (.lui 0 2 0x8001) ∧
    encode (.lui 0 2 0x8001) = 0x3C028001 := ⟨rfl, rfl⟩
theorem test_decode_beq : decode 0b000100_00001_00010_0000000000000100 = .ok (.beq 1 2 4) ∧
    encode (.beq 1 2 4) = 0x10220004 := ⟨rfl, rfl⟩
theorem test_decode_bne : decode 0b000101_00001_00010_1111111111111110 = .ok (.bne 1 2 0xFFFE) ∧
    encode (.bne 1 2 0xFFFE) = 0x1422FFFE := ⟨rfl, rfl⟩
theorem test_decode_lw : decode 0b100011_00001_00010_0000000000001000 = .ok (.lw 1 2 8) ∧
    encode (.lw 1 2 8) = 0x8C220008 := ⟨rfl, rfl⟩
theorem test_decode_sw : decode 0b101011_00001_00010_1111111111111100 = .ok (.sw 1 2 0xFFFC) ∧
    encode (.sw 1 2 0xFFFC) = 0xAC22FFFC := ⟨rfl, rfl⟩
theorem test_decode_j : decode 0b000010_00000000000000000100000000 = .ok (.j 0x100) ∧
    encode (.j 0x100) = 0x08000100 := ⟨rfl, rfl⟩
theorem test_decode_jal : decode 0b000011_00000000000000000100000000 = .ok (.jal 0x100) ∧
    encode (.jal 0x100) = 0x0C000100 := ⟨rfl, rfl⟩

/-- S1: JR with junk in its unused fields decodes with every field kept, and encodes back. -/
theorem test_decode_keeps_unused_fields : decode 0x00894A48 = .ok (.jr 4 9 9 9) ∧
    encode (.jr 4 9 9 9) = 0x00894A48 := ⟨rfl, rfl⟩

/-- The illegal words of V-ILL are refused, each for its own reason. -/
theorem test_decode_refuses :
    decode 0xFC000000 = .error (.unrecognisedOpcode 0x3F) ∧
    decode 0x04000000 = .error (.unrecognisedOpcode 0x01) ∧
    decode 0x20220001 = .error (.unrecognisedOpcode 0x08) ∧
    decode 0x00221820 = .error (.unrecognisedFunct 0x20) ∧
    decode 0x00000001 = .error (.unrecognisedFunct 0x01) ∧
    decode 0x0000000C = .error (.unrecognisedFunct 0x0C) := ⟨rfl, rfl, rfl, rfl, rfl, rfl⟩

/-- A table word as the host gives it; one wider than a word is no instruction (R50). -/
theorem test_decodeTableWord :
    decodeTableWord 32 0x8C220008 = some (.lw 1 2 8) ∧ decodeTableWord 32 0xFC000000 = none ∧
    decodeTableWord 48 0x8C220008 = none := by decide

/-! Reset (V-RESET). -/

theorem test_reset : State.reset.pc = 0x00400000 ∧ State.reset.readReg 29 = 0x00404000 ∧
    State.reset.readReg 28 = 0 ∧ State.reset.readReg 0 = 0 ∧ State.reset.memRead 0x00401000 = 0 ∧
    State.reset.status = .running ∧ State.reset.halt = none := by decide

/-- A step taken right after reset, before any load, ends the run normally (V-RESET). -/
theorem test_step_after_reset : ended State.reset 29 =
    some (some (.zeroWord 0x00400000), 0x00400000, 0x00404000) := by decide

/-- The host's placing of a word: the very next step after reset runs it. -/
theorem test_withFetchWord : seen (State.reset.withFetchWord 32 0x24000005) 0 =
    some (5, some ⟨some 0, none, 0x00400004⟩) := by decide

/-! One step of each instruction, from the tables of Part 2; two cases each at most. -/

/-- The sum wraps; `shamt = 31` is ignored. -/
theorem test_addu : seen (boot 0x00221FE1 [(1, 0xFFFFFFFF), (2, 1)]) 3 =
    some (0, some ⟨some 3, none, 0x00400004⟩) := by decide
/-- Register 0 is written like any other (D5). -/
theorem test_addu_writes_register_zero : seen (boot 0x00220021 [(1, 2), (2, 3)]) 0 =
    some (5, some ⟨some 0, none, 0x00400004⟩) := by decide
/-- The difference borrows; the source that is subtracted is `rt`. -/
theorem test_subu : seen (boot 0x00221823 [(1, 5), (2, 7)]) 3 =
    some (0xFFFFFFFE, some ⟨some 3, none, 0x00400004⟩) := by decide
theorem test_and : seen (boot 0x00221824 [(1, 0x0F0F00FF), (2, 0x00FF0FF0)]) 3 =
    some (0x000F00F0, some ⟨some 3, none, 0x00400004⟩) := by decide
theorem test_or : seen (boot 0x00221825 [(1, 0x0F0F00FF), (2, 0x00FF0FF0)]) 3 =
    some (0x0FFF0FFF, some ⟨some 3, none, 0x00400004⟩) := by decide
theorem test_slt : seen (boot 0x0022182A [(1, 0xFFFFFFFB), (2, 5)]) 3 =
    some (1, some ⟨some 3, none, 0x00400004⟩) := by decide
/-- The difference overflows, so the result is not the signed comparison (C5). -/
theorem test_slt_overflow : seen (boot 0x0022182A [(1, 0x80000000), (2, 1)]) 3 =
    some (0, some ⟨some 3, none, 0x00400004⟩) := by decide
/-- `rs` is ignored. -/
theorem test_sll : seen (boot 0x00E21900 [(2, 0x12345678), (7, 0x0000DEAD)]) 3 =
    some (0x23456780, some ⟨some 3, none, 0x00400004⟩) := by decide
/-- A word that is not zero is SLL, even with target, destination and amount 0. -/
theorem test_sll_is_not_halt : seen (boot 0x00200000 [(0, 9)]) 0 =
    some (9, some ⟨some 0, none, 0x00400004⟩) := by decide
/-- Zero fill, source and destination the same. -/
theorem test_srl : seen (boot 0x00021042 [(2, 0xFFFFFFFF)]) 2 =
    some (0x7FFFFFFF, some ⟨some 2, none, 0x00400004⟩) := by decide
theorem test_srl_by_31 : seen (boot 0x00021FC2 [(2, 0x80000001)]) 3 =
    some (1, some ⟨some 3, none, 0x00400004⟩) := by decide
theorem test_jr : seen (boot 0x00894A48 [(4, 0x00400010), (9, 1)]) 9 =
    some (1, some ⟨none, none, 0x00400010⟩) := by decide
/-- A misaligned target is taken into pc. -/
theorem test_jr_misaligned : seen (boot 0x00800008 [(4, 0x00400002)]) 4 =
    some (0x00400002, some ⟨none, none, 0x00400002⟩) := by decide
theorem test_addiu : seen (boot 0x24228001 [(1, 0x12345678)]) 2 =
    some (0x1233D679, some ⟨some 2, none, 0x00400004⟩) := by decide
theorem test_andi : seen (boot 0x30228001 [(1, 0x12345678)]) 2 =
    some (0x12340000, some ⟨some 2, none, 0x00400004⟩) := by decide
/-- The named alternative `LOGIMM_EXT = zero`, the comparison column of V-ANDI. -/
theorem test_andi_zero_extended :
    seen (bootWith { Config.cfg0 with logImmExt := .zero } 0x3022FFFF [(1, 0x12345678)]) 2 =
    some (0x00005678, some ⟨some 2, none, 0x00400004⟩) := by decide
theorem test_ori : seen (boot 0x34228001 [(1, 0x12345678)]) 2 =
    some (0xFFFFD679, some ⟨some 2, none, 0x00400004⟩) := by decide
theorem test_ori_zero_extended :
    seen (bootWith { Config.cfg0 with logImmExt := .zero } 0x34228001 [(1, 0x12345678)]) 2 =
    some (0x1234D679, some ⟨some 2, none, 0x00400004⟩) := by decide
/-- `rs` is ignored. -/
theorem test_lui : seen (boot 0x3CA21234 [(5, 0x4D), (2, 0xDEADBEEF)]) 2 =
    some (0x12340000, some ⟨some 2, none, 0x00400004⟩) := by decide
/-- Taken and not taken (S3). -/
theorem test_beq : seen (boot 0x10220004 [(1, 3), (2, 3)]) 1 = some (3, some ⟨none, none, 0x00400014⟩) ∧
    seen (boot 0x10220004 [(1, 3), (2, 4)]) 1 = some (3, some ⟨none, none, 0x00400004⟩) := by decide
/-- A backward offset. By R61: `0x00400000 + 4 - 8`. -/
theorem test_bne : seen (boot 0x1422FFFE [(1, 3), (2, 4)]) 1 = some (3, some ⟨none, none, 0x003FFFFC⟩) ∧
    seen (boot 0x14220004 [(1, 3), (2, 3)]) 1 = some (3, some ⟨none, none, 0x00400004⟩) := by decide
/-- The last data word, through a negative displacement. -/
theorem test_lw : seen ((boot 0x8C22FFFC [(1, 0x00404000)]).memWrite 0x00403FFC 0x99) 2 =
    some (0x99, some ⟨some 2, none, 0x00400004⟩) := by decide
/-- One below the data region (S6): nothing is written and pc stays. -/
theorem test_lw_below_data : ended (boot 0x8C22FFFF [(1, 0x00401000), (2, 7)]) 2 =
    some (some (.memoryAccess 0x00400000 0x00400FFF), 0x00400000, 7) := by decide
theorem test_sw : (next? (step (boot 0xAC220004 [(1, 0x00401000), (2, 0xDEADBEEF)]))).map
      (fun t => (t.memRead 0x00401004, t.memRead 0x00401000, t.report)) =
    some (0xDEADBEEF, 0, some ⟨none, some 0x00401004, 0x00400004⟩) := by decide
/-- The instruction region is not writable. -/
theorem test_sw_into_code : (next? (step (boot 0xAC220000 [(1, 0x00400000)]))).map
      (fun t => (t.memRead 0x00400000, t.halt)) =
    some (0xAC220000, some (.memoryAccess 0x00400000 0x00400000)) := by decide
/-- The corrected jump example of S4 (C2). -/
theorem test_j : seen (boot 0x08000100 []) 31 = some (0, some ⟨none, none, 0x00000400⟩) := by decide
theorem test_jal : seen (boot 0x0C100008 [(31, 5)]) 31 =
    some (0x00400004, some ⟨some 31, none, 0x00400020⟩) := by decide
theorem test_halt : ended (boot 0x00000000 [(3, 8)]) 3 =
    some (some (.zeroWord 0x00400000), 0x00400000, 8) := by decide

/-! The other halts (V-ILL, V-FETCH), and a step asked of a halted core. -/

theorem test_illegal_word : ended (boot 0xFC000000 [(3, 8)]) 3 =
    some (some (.illegalInstruction 0x00400000 0xFC000000), 0x00400000, 8) := by decide
theorem test_fetch_fault : ended ({ State.reset with pc := 0x00401000 }) 29 =
    some (some (.fetchFault 0x00401000), 0x00401000, 0x00404000) := by decide
theorem test_halted_core_stays : next? (step (State.reset.enterHalt (.zeroWord 0x00400000))) =
    some (State.reset.enterHalt (.zeroWord 0x00400000)) := by decide
/-- The alternative `REG0_HARDWIRED = true`: the write is discarded, the index still reported (D5). -/
theorem test_register_zero_hardwired :
    seen (bootWith { Config.cfg0 with reg0Hardwired := true } 0x24000005 []) 0 =
    some (0, some ⟨some 0, none, 0x00400004⟩) := by decide
theorem test_cause_codes : causeCode none = 0 ∧ causeCode (some .zeroWord) = 1 ∧
    causeCode (some .illegalInstruction) = 2 ∧ causeCode (some .memoryAccess) = 3 ∧
    causeCode (some .fetchFault) = 4 := by decide

/-! Memory: the canonical form, and the byte view of a host tool. -/

theorem test_write_keeps_canonical_form :
    Memory.write (Memory.write (Memory.write [] 8 1) 4 2) 8 0 = [(4, 2)] := by decide
theorem test_host_cells : Memory.hostCells .big [(4, 0x00AABB00)] = [(5, 0xAA), (6, 0xBB)] ∧
    Memory.byteAt .little [(4, 0x11223344)] 4 = 0x44 := by decide

/-! ## Witnesses: for each statement with hypotheses, operands that meet them all together. -/

/-- The configuration with two instruction words and two data words at base 0. -/
def tiny : Config := ⟨0, 8, 8, .zero, true, false⟩

theorem witness_ImmediateAluResultAndFrame : State.reset.cfg.logImmExt = .sign := by decide
theorem witness_LogicalImmediateZeroAlternative : (State.resetWith tiny).cfg.logImmExt = .zero := by decide

/-- SLT with a difference that fits, at its lower end, and one just past it. -/
theorem witness_SltIsSignOfWrappedDifference :
    Config.discards State.reset.cfg 3 = false ∧
    (∃ s t, exec (.slt 1 2 3 0) s = .next t ∧ s.cfg = State.reset.cfg ∧
      (s.readReg 1).toInt - (s.readReg 2).toInt = -(2 ^ 31) ∧ t.readReg 3 = 1) ∧
    (∃ s t, exec (.slt 1 2 3 0) s = .next t ∧ s.cfg = State.reset.cfg ∧
      (s.readReg 1).toInt - (s.readReg 2).toInt = -(2 ^ 31) - 1 ∧ t.readReg 3 = 0) :=
  ⟨by decide, ⟨boot 0 [(1, 0x80000000)], _, rfl, by decide, by decide, by decide⟩,
    ⟨boot 0 [(1, 0x80000000), (2, 1)], _, rfl, by decide, by decide, by decide⟩⟩

theorem witness_LuiBuildsUpperHalf : Config.discards State.reset.cfg 2 = false ∧
    ∃ t, exec (.lui 5 2 0x8001) State.reset = .next t ∧ t.readReg 2 = 0x80010000 :=
  ⟨by decide, _, rfl, by decide⟩

/-- S2, both values of bit 15. -/
theorem witness_ImmediateSignExtends : Config.discards State.reset.cfg 2 = false ∧
    State.reset.readReg 0 = 0 ∧
    (∃ t, exec (.addiu 0 2 0x8001) State.reset = .next t ∧ t.readReg 2 = 0xFFFF8001) ∧
    (∃ t, exec (.addiu 0 2 0x7FFF) State.reset = .next t ∧ t.readReg 2 = 0x00007FFF) :=
  ⟨by decide, by decide, ⟨_, rfl, by decide⟩, ⟨_, rfl, by decide⟩⟩

/-- The first and the last data word are valid addresses. -/
theorem witness_LoadWordCompletes :
    (let ea := (boot 0 [(1, 0x00401000)]).readReg 1 + (0 : Imm16).signExtend 32;
      ea.toNat % 4 = 0 ∧ Config.cfg0.dbase ≤ ea.toNat ∧ ea.toNat < Config.cfg0.memend) ∧
    (let ea := State.reset.readReg 29 + (0xFFFC : Imm16).signExtend 32;
      ea.toNat % 4 = 0 ∧ Config.cfg0.dbase ≤ ea.toNat ∧ ea.toNat < Config.cfg0.memend) := by decide

/-- A store through register 29 as reset leaves it: the last data word. -/
theorem witness_StoreWordCompletes :
    let ea := State.reset.readReg 29 + (0xFFFC : Imm16).signExtend 32
    ea.toNat % 4 = 0 ∧ State.reset.cfg.dbase ≤ ea.toNat ∧ ea.toNat < State.reset.cfg.memend ∧
      State.reset.effectiveAddress 29 0xFFFC = 0x00403FFC := by decide

/-- Each way an address is invalid, alone: misaligned, last word below the region, first past its end;
and a valid one. -/
theorem witness_DataAddressValidity : State.reset.status = .running ∧
    (let ea := (boot 0 [(1, 0x00401000)]).readReg 1 + (2 : Imm16).signExtend 32;
      ea.toNat % 4 ≠ 0 ∧ Config.cfg0.dbase ≤ ea.toNat ∧ ea.toNat < Config.cfg0.memend) ∧
    (let ea := (boot 0 [(1, 0x00401000)]).readReg 1 + (0xFFFC : Imm16).signExtend 32;
      ea.toNat % 4 = 0 ∧ ea.toNat = Config.cfg0.dbase - 4) ∧
    (let ea := State.reset.readReg 29 + (0 : Imm16).signExtend 32;
      ea.toNat % 4 = 0 ∧ ea.toNat = Config.cfg0.memend) ∧
    (let ea := State.reset.readReg 29 + (0xFFFC : Imm16).signExtend 32;
      ¬(ea.toNat % 4 ≠ 0 ∨ ea.toNat < Config.cfg0.dbase ∨ Config.cfg0.memend ≤ ea.toNat)) := by decide

/-- A store one word past the end raises it, an ADDU completes. -/
theorem witness_OnlyLoadsAndStoresRaiseMemoryAccess : State.reset.status = .running ∧
    (∃ t, exec (.sw 29 1 0) State.reset = .next t ∧ t.halt = some (.memoryAccess 0x00400000 0x00404000)) ∧
    (∃ t, exec (.addu 1 2 3 0) State.reset = .next t ∧ t.status = .running) :=
  ⟨rfl, ⟨_, rfl, by decide⟩, ⟨_, rfl, by decide⟩⟩

/-- S7, with the load through another register; and writes elsewhere. -/
theorem witness_StoreThenLoadReturnsValue :
    (∀ p ∈ [((0x00401008 : Word), (1 : Word)), (0x0040100C, 2)], p.1 ≠ 0x00401004) ∧
    ∃ s t u : State, s.status = .running ∧
    exec (.sw 1 2 4) s = .next t ∧ t.status = .running ∧
    t.effectiveAddress 3 0 = s.effectiveAddress 1 4 ∧ exec (.lw 3 3 0) t = .next u ∧
    Config.discards s.cfg 3 = false ∧ u.readReg 3 = 0xDEADBEEF :=
  ⟨by simp, boot 0 [(1, 0x00401000), (2, 0xDEADBEEF), (3, 0x00401004)], _, _, by decide, rfl, by decide,
    by decide, rfl, by decide, by decide⟩

/-- A store that completes, and a transfer that leaves another pc. -/
theorem witness_MemoryAndControlAreDisjoint : State.reset.status = .running ∧
    (∃ t, exec (.sw 29 1 0xFFFC) State.reset = .next t ∧ t.status = .running ∧ t.pc = 0x00400004) ∧
    (∃ t, exec (.beq 1 2 4) State.reset = .next t ∧ t.status = .running ∧ t.pc ≠ State.reset.pc + 4) :=
  ⟨rfl, ⟨_, rfl, by decide, by decide⟩, ⟨_, rfl, by decide, by decide⟩⟩

theorem witness_JumpTargetBits :
    (∃ t, exec (.j 0x3FFFFFF) State.reset = .next t ∧ t.pc = 0x0FFFFFFC) ∧
    (∃ t, exec (.jal 0x100008) State.reset = .next t ∧ t.pc = 0x00400020) :=
  ⟨⟨_, rfl, by decide⟩, ⟨_, rfl, by decide⟩⟩

/-- The two ends of the offset's range. -/
theorem witness_BranchOffsetIsSignedWordOffset :
    (∃ t, exec (.beq 1 2 0x8000) State.reset = .next t ∧ State.reset.readReg 1 = State.reset.readReg 2 ∧
      t.pc = State.reset.pc + 4 - 131072) ∧
    (∃ t, exec (.bne 29 2 0x7FFF) State.reset = .next t ∧ State.reset.readReg 29 ≠ State.reset.readReg 2 ∧
      t.pc = State.reset.pc + 4 + 131068) :=
  ⟨⟨_, rfl, by decide, by decide⟩, ⟨_, rfl, by decide, by decide⟩⟩

theorem witness_CallThenReturn : ∃ t u, exec (.jal 0x100005) State.reset = .next t ∧
    exec (.jr 31 0 0 0) t = .next u ∧ u.pc = 0x00400004 := ⟨_, _, rfl, rfl, by decide⟩

theorem witness_OnlyJrMisalignsPc : ∃ t, (boot 0x00221821 []).status = .running ∧
    (boot 0x00221821 []).pc.toNat % 4 = 0 ∧ step (boot 0x00221821 []) = .next t ∧
    decode ((boot 0x00221821 []).memRead (boot 0x00221821 []).pc) = .ok (.addu 1 2 3 0) :=
  ⟨_, by decide, by decide, rfl, rfl⟩

/-- Each way a target is bad: misaligned, below the region, at its end. -/
theorem witness_BadTargetFaultsAtNextFetch :
    (let s := boot 0 [(1, 0x00400002), (2, 0x00401000)];
      s.cfg.WF ∧ s.status = .running ∧
        (s.readReg 1).toNat % 4 ≠ 0 ∧ (s.readReg 2).toNat = s.cfg.ibase + s.cfg.isize ∧
        (next? (exec (.j 0x100) s)).map (fun t => decide (t.pc.toNat < s.cfg.ibase)) = some true) := by decide

theorem witness_ZeroWordHalts : State.reset.cfg.WF ∧ State.reset.status = .running ∧
    fetchValid State.reset.cfg State.reset.pc ∧ State.reset.memRead State.reset.pc = 0 := by decide

/-- A word of each kind the statement covers: an unlisted function code, an unlisted opcode. -/
theorem witness_IllegalWordHalts :
    ((boot 0x00221820 []).cfg.WF ∧ (boot 0x00221820 []).status = .running ∧
      fetchValid (boot 0x00221820 []).cfg (boot 0x00221820 []).pc ∧
      (boot 0x00221820 []).memRead 0x00400000 = 0x00221820) ∧
    ((0x00221820 : Word).extractLsb' 26 6 = 0 ∧ (0x00221820 : Word).extractLsb' 0 6 = 0x20) ∧
    ((boot 0xFC000000 []).memRead 0x00400000 = 0xFC000000 ∧ (0xFC000000 : Word).extractLsb' 26 6 = 0x3F) := by
  decide

/-- Each way a fetch address is bad, alone. -/
theorem witness_BadFetchAddressHalts : State.reset.cfg.WF ∧ State.reset.status = .running ∧
    (0x00400002 : Word).toNat % 4 ≠ 0 ∧ (0x003FFFFC : Word).toNat < State.reset.cfg.ibase ∧
    State.reset.cfg.ibase + State.reset.cfg.isize = (0x00401000 : Word).toNat := by decide

/-- Each cause is entered from some running state with no record. -/
theorem witness_HaltCausesInStageOrder :
    (next? (step { State.reset with pc := 2 })).map (·.halt) = some (some (.fetchFault 2)) ∧
    (next? (step State.reset)).map (·.halt) = some (some (.zeroWord 0x00400000)) ∧
    (next? (step (boot 1 []))).map (·.halt) = some (some (.illegalInstruction 0x00400000 1)) ∧
    (next? (step (boot 0x8C020000 []))).map (·.halt) = some (some (.memoryAccess 0x00400000 0)) ∧
    State.reset.status = .running ∧ State.reset.halt = none := by decide

theorem witness_HaltingStepCommitsNothing : ∃ t, (boot 0xAFA20000 []).status = .running ∧
    step (boot 0xAFA20000 []) = .next t ∧ t.status = .halted ∧
    t.halt = some (.memoryAccess 0x00400000 0x00404000) := ⟨_, by decide, rfl, by decide, by decide⟩

/-- A normal end and a faulted one. -/
theorem witness_RunEndsNormallyExactlyOnZeroWord :
    (∃ t, step State.reset = .next t ∧ t.status = .halted ∧ t.endedNormally) ∧
    (∃ t, step (boot 1 []) = .next t ∧ t.status = .halted ∧ t.faulted) :=
  ⟨⟨_, rfl, rfl, rfl, _, rfl⟩, ⟨_, rfl, by decide, by decide, _, rfl, by decide⟩⟩

theorem witness_HaltedIsTerminal : (State.reset.enterHalt (.zeroWord 0x00400000)).cfg.WF ∧
    (State.reset.enterHalt (.zeroWord 0x00400000)).status = .halted ∧
    ((State.reset.enterHalt (.zeroWord 0x00400000)).load [1]).isSome = true := by decide

theorem witness_StepRunsDecodedInstruction : (boot 0x0C100008 []).cfg.WF ∧
    (boot 0x0C100008 []).status = .running ∧ fetchValid (boot 0x0C100008 []).cfg (boot 0x0C100008 []).pc ∧
    decode ((boot 0x0C100008 []).memRead (boot 0x0C100008 []).pc) = .ok (.jal 0x100008) :=
  ⟨by decide, by decide, by decide, rfl⟩

/-- A configuration of R6, and one that breaks it. -/
theorem witness_StepIsTotal : State.reset.cfg.WF ∧
    ¬ (State.resetWith { Config.cfg0 with isize := 2 }).cfg.WF := by decide

/-- A step that completes and one that halts. -/
theorem witness_PcAfterEveryStep :
    (∃ t, step (boot 0x10000004 []) = .next t ∧ t.status = .running ∧ t.pc = 0x00400014) ∧
    (∃ t, step State.reset = .next t ∧ t.status = .halted ∧ t.pc = 0x00400000) ∧
    (boot 0x10000004 []).status = .running ∧ State.reset.status = .running :=
  ⟨⟨_, rfl, by decide, by decide⟩, ⟨_, rfl, by decide, by decide⟩, by decide, by decide⟩

/-- Two states that differ in register 7, which `addu $3, $1, $2` does not read; and an illegal word. -/
theorem witness_RegisterReadAndWriteSets :
    (let s := boot 0x00221821 [(1, 5), (2, 7)];
      let s' := s.writeReg 7 1;
      s.status = .running ∧ decode (s.memRead s.pc) = .ok (.addu 1 2 3 0) ∧
        s'.cfg = s.cfg ∧ s'.pc = s.pc ∧ s'.mem = s.mem ∧ s'.status = s.status ∧ s'.halt = s.halt ∧
        s'.report = s.report ∧ s'.readReg 1 = s.readReg 1 ∧ s'.readReg 2 = s.readReg 2 ∧
        s'.readReg 7 ≠ s.readReg 7 ∧ (∃ t, step s = .next t ∧ t.status = .running) ∧
        ∃ t', step s' = .next t' ∧ t'.readReg 3 = 12) ∧
    decode ((boot 1 []).memRead (boot 1 []).pc) = .error (.unrecognisedFunct 1) :=
  ⟨⟨by decide, rfl, rfl, rfl, rfl, rfl, rfl, rfl, by decide, by decide, by decide, ⟨_, rfl, by decide⟩,
    _, rfl, by decide⟩, rfl⟩

/-- A step that reports a register, and one that reports an address. -/
theorem witness_ReportAccountsForEveryChange :
    (∃ t, step (boot 0x24000005 []) = .next t ∧ t.status = .running ∧
      t.report = some ⟨some 0, none, 0x00400004⟩) ∧
    (∃ t, step (boot 0xAFA2FFFC []) = .next t ∧ t.status = .running ∧
      t.report = some ⟨none, some 0x00403FFC, 0x00400004⟩) ∧
    (boot 0x24000005 []).status = .running ∧ (boot 0xAFA2FFFC []).status = .running :=
  ⟨⟨_, rfl, by decide, by decide⟩, ⟨_, rfl, by decide, by decide⟩, by decide, by decide⟩

theorem witness_OnlyStoresChangeMemory : ∃ t, step (boot 0xAFA2FFFC [(2, 1)]) = .next t ∧
    t.mem.read 0x00403FFC = 1 ∧ (boot 0xAFA2FFFC [(2, 1)]).mem.read 0x00403FFC = 0 :=
  ⟨_, rfl, by decide, by decide⟩

theorem witness_InstructionRegionConstantOverRuns : ∃ t, core.run 2 (boot 0x24000005 []) = .next t ∧
    (0x00400000 : Nat) < (boot 0x24000005 []).cfg.dbase := ⟨_, rfl, by decide⟩

theorem witness_StepIsTheStagedCycle : State.reset.cfg.WF ∧ State.reset.status = .running := by decide

/-- Configurations of R6 with and without the seeding of register 29. -/
theorem witness_ResetValues : Config.cfg0.WF ∧ Config.cfg0.seedSp = true ∧ tiny.WF ∧ tiny.seedSp = false ∧
    State.reset.cfg = Config.cfg0 := by decide

/-- A state with the invariant, a store at its pc, and registers and data set: the step of it completes. -/
theorem witness_StepKeepsInvariant : (boot 0xAFA2FFFC [(2, 1)]).Inv ∧
    ∃ t, step (boot 0xAFA2FFFC [(2, 1)]) = .next t ∧ t.mem.read 0x00403FFC = 1 :=
  ⟨⟨by decide, by decide, by decide, by decide, rfl, fun r h => by cases h⟩, _, rfl, by decide⟩

/-- A halted state with the invariant. -/
theorem witness_halted_state_has_invariant : (State.reset.enterHalt (.zeroWord 0x00400000)).Inv :=
  ⟨by decide, by decide, by decide, by decide, ⟨_, rfl, by decide, by decide, by decide⟩, fun r h => by cases h⟩

/-- Programs of exactly the region's capacity and of one word more. -/
theorem witness_LoaderPlacesProgram : (State.resetWith tiny).cfg.WF ∧
    (((State.resetWith tiny).load [7, 8]).map (·.mem)) = some [(0, 7), (4, 8)] ∧
    (State.resetWith tiny).load [7, 8, 9] = none ∧ (launch tiny [7]).map (·.mem) = some [(0, 7)] := by decide

theorem witness_LoadKeepsInvariant : (State.resetWith tiny).Inv ∧
    (State.resetWith tiny).status = .running ∧ ((State.resetWith tiny).load [7, 8]).isSome = true ∧
    tiny.WF ∧ (launch tiny [7, 8]).isSome = true :=
  ⟨⟨by decide, by decide, by decide, by decide, rfl, fun r h => by cases h⟩, by decide, by decide, by decide,
    by decide⟩

theorem witness_FirstStepRunsFirstWord : Config.cfg0.WF ∧
    (launch Config.cfg0 [0x24000005]).isSome = true ∧ decode 0x24000005 = .ok (.addiu 0 0 5) :=
  ⟨by decide, by decide, rfl⟩

theorem witness_PlacedWordRunsNext : State.reset.cfg.WF ∧ State.reset.status = .running ∧
    fetchValid State.reset.cfg State.reset.pc ∧ Instr.wellFormed (.jal 0x100008) = true := by decide

theorem witness_DecodeOfEncode : Instr.wellFormed (.sll 0 0 0 1) = true ∧
    Instr.wellFormed (.sw 31 31 0xFFFF) = true := by decide

theorem witness_EncodeOfDecode : decode 0x00894A48 = .ok (.jr 4 9 9 9) := rfl

/-- A word of each side: refused, accepted; and a row of the tail that a word selects. -/
theorem witness_DecodeAgreesWithOpcodeTable : selectRow 1 = none ∧
    selectRow 0x00200000 = some ⟨.SLL, 0x00000000, 0xFC00003F⟩ ∧ selectRow 0 = some ⟨.HALT, 0, 0xFFFFFFFF⟩ ∧
    ∃ r ∈ opcodeTable.tail, r.selects 0x8C220008 = true := by decide

end Sys2Proof.Tests
end

section
/-! PROOFS. The pc after every step of a running core (spec/10_state.md R16). -/

namespace Sys2Proof.Machine

open Sys2Proof.Claims

/-- The step of a running core that fetches an instruction is the meaning of that instruction (R140). -/
theorem step_eq_exec {s : State} {i : Instr} (hc : s.cfg.WF) (hs : s.status = .running)
    (hv : fetchValid s.cfg s.pc) (hd : decode (s.memRead s.pc) = .ok i) : step s = exec i s := by
  rw [step, if_pos hc, hs]
  simp only [fetchInstr_ok hv hd]

/-- Inversion of the step of a running core that keeps the equation of `exec`, which `StepCase.run`
gives up for the effect: fetch or decode halts, or the decoded instruction runs. -/
theorem step_running_cases {s t : State} (hs : s.status = .running) (h : step s = .next t) :
    (∃ r, t = s.enterHalt r) ∨
      ∃ i, decode (s.memRead s.pc) = .ok i ∧ exec i s = .next t := by
  obtain ⟨hc, hcase⟩ := step_cases h
  cases hcase with
  | halted hh => simp [hs] at hh
  | fetchFault _ _ => exact .inl ⟨_, rfl⟩
  | illegal _ _ _ _ => exact .inl ⟨_, rfl⟩
  | run _ hv i hd _ _ => exact .inr ⟨i, hd, step_eq_exec hc hs hv hd ▸ h⟩

/-- Going from `s` to `t` either completes, with the status kept and `npc` in pc, or halts with pc kept. -/
def MovesPcOrHalts (s t : State) (npc : Word) : Prop :=
  (t.status = s.status ∧ t.pc = npc) ∨ (t.status = .halted ∧ t.pc = s.pc)

theorem movesPcOrHalts_writeBack (s : State) (dest : RegIdx) (val npc : Word) :
    MovesPcOrHalts s (s.writeBack dest val npc) npc :=
  .inl ⟨writeBack_status .., writeBack_pc ..⟩

theorem movesPcOrHalts_complete (s : State) (changedReg : Option RegIdx) (changedMem : Option Word)
    (npc : Word) : MovesPcOrHalts s (s.complete changedReg changedMem npc) npc :=
  .inl ⟨complete_status .., complete_pc ..⟩

theorem movesPcOrHalts_enterHalt (s : State) (r : HaltRecord) (npc : Word) :
    MovesPcOrHalts s (s.enterHalt r) npc :=
  .inr ⟨enterHalt_status .., enterHalt_pc ..⟩

/-- The address check of LW and SW commits or halts (R100). -/
theorem movesPcOrHalts_accessData {s t : State} {npc : Word} (ea : Word) (ht : MovesPcOrHalts s t npc) :
    MovesPcOrHalts s (s.accessData ea t) npc := by
  by_cases hv : dataValid s.cfg ea
  · rwa [accessData_valid hv]
  · rw [accessData_invalid hv]; exact movesPcOrHalts_enterHalt ..

/-- The branch condition, a wrapped difference of zero, is equality of the operands (R111). -/
theorem differenceIsZero_iff {vs vt : Word} : differenceIsZero vs vt = true ↔ vs = vt := by
  simp [differenceIsZero, difference, BitVec.sub_eq_iff_eq_add]

theorem branchTarget_zero (pc0 : Word) : branchTarget pc0 0 = pc0 + 4 := BitVec.add_zero _

theorem branchTarget_beq (s : State) (rs rt : RegIdx) (imm16 : Imm16) :
    branchTarget s.pc (if differenceIsZero (s.readReg rs) (s.readReg rt) then branchOffset imm16 else 0) =
      pcAfter (.beq rs rt imm16) s := by
  by_cases he : s.readReg rs = s.readReg rt
  · simp only [pcAfter, differenceIsZero_iff, if_pos he]; rfl
  · simp only [pcAfter, differenceIsZero_iff, if_neg he, branchTarget_zero]

theorem branchTarget_bne (s : State) (rs rt : RegIdx) (imm16 : Imm16) :
    branchTarget s.pc (if !differenceIsZero (s.readReg rs) (s.readReg rt) then branchOffset imm16 else 0) =
      pcAfter (.bne rs rt imm16) s := by
  by_cases he : s.readReg rs = s.readReg rt
  · have hz : differenceIsZero (s.readReg rs) (s.readReg rt) = true := differenceIsZero_iff.mpr he
    simp only [pcAfter, hz, if_pos he]; exact branchTarget_zero _
  · have hz : differenceIsZero (s.readReg rs) (s.readReg rt) = false :=
      Bool.eq_false_iff.mpr (mt differenceIsZero_iff.mp he)
    simp only [pcAfter, hz, if_neg he]; rfl

/-- Every meaning leaves in pc the value of the table of R16, or halts and leaves pc alone. -/
theorem exec_movesPcOrHalts {i : Instr} {s t : State} (h : exec i s = .next t) :
    MovesPcOrHalts s t (pcAfter i s) := by
  cases i with
  | halt => cases h; exact movesPcOrHalts_enterHalt ..
  | lw rs rt imm => cases h; exact movesPcOrHalts_accessData _ (movesPcOrHalts_writeBack ..)
  | sw rs rt imm =>
    cases h
    exact movesPcOrHalts_accessData _ (.inl ⟨(complete_status ..).trans (memWrite_status ..), complete_pc ..⟩)
  | beq rs rt imm => cases h; rw [← branchTarget_beq]; exact movesPcOrHalts_complete ..
  | bne rs rt imm => cases h; rw [← branchTarget_bne]; exact movesPcOrHalts_complete ..
  | j tgt => cases h; exact movesPcOrHalts_complete ..
  | jr rs rt rd sh => cases h; exact movesPcOrHalts_complete ..
  | jal tgt => cases h; exact movesPcOrHalts_writeBack ..
  | addu rs rt rd sh => cases h; exact movesPcOrHalts_writeBack ..
  | subu rs rt rd sh => cases h; exact movesPcOrHalts_writeBack ..
  | and rs rt rd sh => cases h; exact movesPcOrHalts_writeBack ..
  | or rs rt rd sh => cases h; exact movesPcOrHalts_writeBack ..
  | slt rs rt rd sh => cases h; exact movesPcOrHalts_writeBack ..
  | sll rs rt rd sh => cases h; exact movesPcOrHalts_writeBack ..
  | srl rs rt rd sh => cases h; exact movesPcOrHalts_writeBack ..
  | addiu rs rt imm => cases h; exact movesPcOrHalts_writeBack ..
  | andi rs rt imm => cases h; exact movesPcOrHalts_writeBack ..
  | ori rs rt imm => cases h; exact movesPcOrHalts_writeBack ..
  | lui rs rt imm => cases h; exact movesPcOrHalts_writeBack ..

/-- Settles O29: fetch and decode halt with pc kept, and a decoded instruction moves pc by the table or
halts. -/
theorem pcAfterEveryStep : Obligations.PcAfterEveryStep := by
  unfold Obligations.PcAfterEveryStep
  intro s t hs h
  rcases step_running_cases hs h with ⟨r, rfl⟩ | ⟨i, hd, hx⟩
  · simp
  · rcases exec_movesPcOrHalts hx with ⟨hst, hpc⟩ | ⟨hst, hpc⟩
    · exact ⟨fun hh => by simp [hst, hs] at hh, fun _ => ⟨i, hd, hpc⟩⟩
    · exact ⟨fun _ => hpc, fun hr => by simp [hst] at hr⟩

end Sys2Proof.Machine
end

section
/-! PROOFS. A stored word is read back unchanged (spec/20_memory.md R38). -/

namespace Sys2Proof.Machine

/-- Writes to other addresses, however many, leave the word at `a` (R38). -/
theorem memRead_foldl_memWrite_other {a : Word} (others : List (Word × Word)) (s : State)
    (ho : ∀ p ∈ others, p.1 ≠ a) :
    (others.foldl (fun u p => u.memWrite p.1 p.2) s).memRead a = s.memRead a := by
  induction others generalizing s with
  | nil => rfl
  | cons p rest ih =>
    obtain ⟨hp, hrest⟩ := List.forall_mem_cons.1 ho
    rw [List.foldl_cons, ih _ hrest, memRead_memWrite_other s p.2 hp.symm]

/-- LW at a valid data address completes with the word there written back (R100, R102). -/
theorem exec_lw_valid {s : State} {rs rt : RegIdx} {imm16 : Imm16}
    (hv : dataValid s.cfg (s.effectiveAddress rs imm16)) :
    exec (.lw rs rt imm16) s =
      .next (s.writeBack rt (s.memRead (s.effectiveAddress rs imm16)) s.pcPlus4) := by
  rw [exec_lw, accessData_valid hv]

/-- Only the valid branch of the address check leaves a running core (R100, R155). -/
theorem accessData_of_running {s u : State} {ea : Word} (hr : (s.accessData ea u).status = .running) :
    dataValid s.cfg ea ∧ s.accessData ea u = u := by
  by_cases hv : dataValid s.cfg ea
  · exact ⟨hv, accessData_valid hv u⟩
  · rw [accessData_invalid hv] at hr; nomatch hr

/-- A SW that leaves a running core had a valid address, and wrote its word there (R100, R103). -/
theorem exec_sw_of_running {s t : State} {rs rt : RegIdx} {imm16 : Imm16}
    (h : exec (.sw rs rt imm16) s = .next t) (hr : t.status = .running) :
    dataValid s.cfg (s.effectiveAddress rs imm16) ∧
      t = (s.memWrite (s.effectiveAddress rs imm16) (s.readReg rt)).complete none
        (some (s.effectiveAddress rs imm16)) s.pcPlus4 := by
  cases h
  exact accessData_of_running hr

/-- Settles O11: writes elsewhere leave the word alone, and a SW that completes leaves its word at an
address that is then valid for the LW. -/
theorem storeThenLoadReturnsValue : Obligations.StoreThenLoadReturnsValue := by
  unfold Obligations.StoreThenLoadReturnsValue
  refine ⟨fun s a v others ho => ?_, fun s t u rs rt rs' rt' imm16 imm16' hs hsw ht hea hlw => ?_⟩
  · rw [memRead_foldl_memWrite_other others _ ho, memRead_memWrite_same]
  · obtain ⟨hv, rfl⟩ := exec_sw_of_running hsw ht
    rw [exec_lw_valid (by rwa [hea]), hea] at hlw
    cases hlw
    exact ⟨by simpa using hs, fun hd => by simp [readReg_writeBack, hd], by simp⟩

end Sys2Proof.Machine
end

section
/-! PROOFS. The targets of jumps and taken branches (spec/30_encoding.md R60, R61). -/

namespace Sys2Proof.Machine

/-- The jump target bit by bit (R60): `00`, then the field, then the region of the jump's own address. -/
theorem getLsbD_jumpTarget (pc0 : Word) (target26 : Target26) {k : Nat} (hk : k < 32) :
    (jumpTarget pc0 target26).getLsbD k =
      if k < 2 then false else if k < 28 then target26.getLsbD (k - 2) else pc0.getLsbD k := by
  rw [jumpTarget]
  interval_cases k <;> simp

theorem jumpTarget_region (pc0 : Word) (target26 : Target26) :
    (jumpTarget pc0 target26).extractLsb' 28 4 = pc0.extractLsb' 28 4 := by
  ext k hk
  simp [getLsbD_jumpTarget pc0 target26 (show 28 + k < 32 by omega), show ¬ 28 + k < 2 by omega]

theorem jumpTarget_field (pc0 : Word) (target26 : Target26) :
    (jumpTarget pc0 target26).extractLsb' 2 26 = target26 := by
  ext k hk
  simp [getLsbD_jumpTarget pc0 target26 (show 2 + k < 32 by omega), show ¬ 2 + k < 2 by omega,
    show 2 + k < 28 by omega, hk]

theorem jumpTarget_low (pc0 : Word) (target26 : Target26) :
    (jumpTarget pc0 target26).extractLsb' 0 2 = 0 := by
  ext k hk
  simp [getLsbD_jumpTarget pc0 target26 (show k < 32 by omega), hk]

/-- Alignment is the `00` of the low bits, read as a number (R60). -/
theorem jumpTarget_aligned (pc0 : Word) (target26 : Target26) :
    (jumpTarget pc0 target26).toNat % 4 = 0 := by
  simpa [BitVec.extractLsb'_toNat] using congrArg BitVec.toNat (jumpTarget_low pc0 target26)

/-- Both jumps set pc to the jump target (R113, R114). -/
theorem exec_jump_pc {s t : State} {i : Instr} {target26 : Target26}
    (hi : i = .j target26 ∨ i = .jal target26) (h : exec i s = .next t) :
    t.pc = jumpTarget s.pc target26 := by
  rcases hi with rfl | rfl
  · rw [exec_j] at h; cases h; exact complete_pc ..
  · rw [exec_jal] at h; cases h; exact writeBack_pc ..

/-- A branch whose condition holds adds its offset (R111, R112). -/
theorem exec_branch_taken_pc {s t : State} {rs rt : RegIdx} {imm16 : Imm16}
    (h : (exec (.beq rs rt imm16) s = .next t ∧ s.readReg rs = s.readReg rt) ∨
      (exec (.bne rs rt imm16) s = .next t ∧ s.readReg rs ≠ s.readReg rt)) :
    t.pc = branchTarget s.pc (branchOffset imm16) := by
  rcases h with ⟨hx, he⟩ | ⟨hx, he⟩
  · rw [exec_beq, branchTarget_beq] at hx
    cases hx; exact (complete_pc ..).trans (if_pos he)
  · rw [exec_bne, branchTarget_bne] at hx
    cases hx; exact (complete_pc ..).trans (if_neg he)

/-- Shifting the immediate left by 2 multiplies it by 4 as a signed number: 18 bits do not wrap in 32 (R61). -/
theorem toInt_branchOffset (imm16 : Imm16) : (branchOffset imm16).toInt = imm16.toInt * 4 := by
  have hlo := BitVec.le_toInt imm16
  have hhi := BitVec.toInt_lt (x := imm16)
  have hsext : (immediate imm16).toInt = imm16.toInt := BitVec.toInt_signExtend_of_le (by decide)
  rw [branchOffset, BitVec.shiftLeft_eq_mul_twoPow, BitVec.toInt_mul, hsext,
    show (BitVec.twoPow 32 2).toInt = 4 by decide]
  exact Int.bmod_eq_of_le (by omega) (by omega)

/-- Settles O15: both jumps set pc to `jumpTarget`, whose bits are known. -/
theorem jumpTargetBits : Obligations.JumpTargetBits := by
  unfold Obligations.JumpTargetBits
  intro s t target26 i hi h
  rw [exec_jump_pc hi h]
  exact ⟨jumpTarget_region .., jumpTarget_field .., jumpTarget_low .., rfl, jumpTarget_aligned ..⟩

/-- Settles O16: the offset of a taken branch is `imm << 2`, which does not wrap. -/
theorem branchOffsetIsSignedWordOffset : Obligations.BranchOffsetIsSignedWordOffset := by
  unfold Obligations.BranchOffsetIsSignedWordOffset
  intro s t rs rt imm16 h
  have hlo := BitVec.le_toInt imm16
  have hhi := BitVec.toInt_lt (x := imm16)
  have hoff := toInt_branchOffset imm16
  exact ⟨branchOffset imm16, exec_branch_taken_pc h, rfl, hoff, by omega, by omega⟩

end Sys2Proof.Machine
end

section
/-! PROOFS. Re-encoding a decoded word gives it back, and the formats in shift-and-or form
(spec/30_encoding.md R70). -/

namespace Sys2Proof

/-- R52 with the function code named, as an accepted word meets it. -/
theorem registerWord_of_fields {w : Word} {fn : BitVec 6} (ho : fieldOp w = opRegister)
    (hf : fieldFunct w = fn) :
    registerWord (fieldRs w) (fieldRt w) (fieldRd w) (fieldShamt w) fn = w :=
  hf ▸ registerWord_fields ho

/-- R53 with the opcode named. -/
theorem immediateWord_of_fields {w : Word} {op : BitVec 6} (ho : fieldOp w = op) :
    immediateWord op (fieldRs w) (fieldRt w) (fieldImm16 w) = w :=
  ho ▸ immediateWord_fields w

/-- R54 with the opcode named. -/
theorem jumpWord_of_fields {w : Word} {op : BitVec 6} (ho : fieldOp w = op) :
    jumpWord op (fieldTarget26 w) = w :=
  ho ▸ jumpWord_fields w

/-- Every instruction the guards of the decoder allow for a word encodes to that word. -/
theorem encode_of_decodes {w : Word} {i : Instr} (h : Decodes w i) : encode i = w := by
  cases h with
  | halt h0 => exact h0.symm
  | sll _ ho hf => exact registerWord_of_fields ho hf
  | srl _ ho hf => exact registerWord_of_fields ho hf
  | jr _ ho hf => exact registerWord_of_fields ho hf
  | addu _ ho hf => exact registerWord_of_fields ho hf
  | subu _ ho hf => exact registerWord_of_fields ho hf
  | and _ ho hf => exact registerWord_of_fields ho hf
  | or _ ho hf => exact registerWord_of_fields ho hf
  | slt _ ho hf => exact registerWord_of_fields ho hf
  | j ho => exact jumpWord_of_fields ho
  | jal ho => exact jumpWord_of_fields ho
  | beq ho => exact immediateWord_of_fields ho
  | bne ho => exact immediateWord_of_fields ho
  | addiu ho => exact immediateWord_of_fields ho
  | andi ho => exact immediateWord_of_fields ho
  | ori ho => exact immediateWord_of_fields ho
  | lui ho => exact immediateWord_of_fields ho
  | lw ho => exact immediateWord_of_fields ho
  | sw ho => exact immediateWord_of_fields ho

/-! The three formats in the form of R70. -/

theorem registerWord_eq_shift_or (rs rt rd : RegIdx) (sh : Shamt) (fn : BitVec 6) :
    registerWord rs rt rd sh fn = ((0 : Word) <<< 26) ||| (rs.zeroExtend 32 <<< 21) |||
      (rt.zeroExtend 32 <<< 16) ||| (rd.zeroExtend 32 <<< 11) ||| (sh.zeroExtend 32 <<< 6) |||
      fn.zeroExtend 32 := by
  have hw : registerWord rs rt rd sh fn = (opRegister ++ rs ++ rt ++ rd ++ sh ++ fn).zeroExtend 32 :=
    (BitVec.setWidth_eq _).symm
  rw [hw, zeroExtend_append _ fn (by decide), zeroExtend_append _ sh (by decide),
    zeroExtend_append _ rd (by decide), zeroExtend_append _ rt (by decide),
    zeroExtend_append _ rs (by decide)]
  simp only [BitVec.shiftLeft_or_distrib, ← BitVec.shiftLeft_add]
  rfl

theorem immediateWord_eq_shift_or (op : BitVec 6) (rs rt : RegIdx) (imm16 : Imm16) :
    immediateWord op rs rt imm16 = (op.zeroExtend 32 <<< 26) ||| (rs.zeroExtend 32 <<< 21) |||
      (rt.zeroExtend 32 <<< 16) ||| imm16.zeroExtend 32 := by
  have hw : immediateWord op rs rt imm16 = (op ++ rs ++ rt ++ imm16).zeroExtend 32 :=
    (BitVec.setWidth_eq _).symm
  rw [hw, zeroExtend_append _ imm16 (by decide), zeroExtend_append _ rt (by decide),
    zeroExtend_append _ rs (by decide)]
  simp only [BitVec.shiftLeft_or_distrib, ← BitVec.shiftLeft_add]

theorem jumpWord_eq_shift_or (op : BitVec 6) (target26 : Target26) :
    jumpWord op target26 = (op.zeroExtend 32 <<< 26) ||| target26.zeroExtend 32 :=
  (BitVec.setWidth_eq (op ++ target26)).symm.trans (zeroExtend_append op target26 (by decide))

/-- The sign extension keeps the field in its low half (R59). -/
theorem extractLsb'_signExtend (imm16 : Imm16) : (imm16.signExtend 32).extractLsb' 0 16 = imm16 := by
  ext k hk
  simp [← BitVec.getLsbD_eq_getElem, BitVec.getLsbD_signExtend, hk, show k < 32 by omega]

/-- Settles O43: the decoder's guards give the word back from its fields, and the encoder's concatenations
are shift-and-or. -/
theorem encodeOfDecode : Obligations.EncodeOfDecode := by
  unfold Obligations.EncodeOfDecode
  refine ⟨fun w i h => encode_of_decodes (decodes_of_decode h), registerWord_eq_shift_or,
    fun op rs rt imm16 => ?_, fun op target26 pc0 => ?_⟩
  · rw [extractLsb'_signExtend]; exact immediateWord_eq_shift_or op rs rt imm16
  · rw [Machine.jumpTarget_field]; exact jumpWord_eq_shift_or op target26

end Sys2Proof
end

section
/-! PROOFS. The register ALU instructions: a write-back has the register-write frame
(spec/40_alu_register.md R80, spec/49_instruction_cycle.md R139). -/

namespace Sys2Proof.Machine

open Sys2Proof.Claims

/-- Which writes are discarded, in the words of the rule (R139). -/
theorem discards_iff {c : Config} {i : RegIdx} :
    Config.discards c i = true ↔ c.reg0Hardwired = true ∧ i = 0 := by
  simp [Config.discards]

/-- The destination after a write-back (R139). -/
theorem readReg_writeBack_dest (s : State) (dest : RegIdx) (val npc : Word) :
    (s.writeBack dest val npc).readReg dest =
      if s.cfg.reg0Hardwired = true ∧ dest = 0 then s.readReg 0 else val := by
  rw [readReg_writeBack]
  by_cases h : s.cfg.reg0Hardwired = true ∧ dest = 0
  · have hd : Config.discards s.cfg dest = true := discards_iff.2 h
    rw [if_pos h, if_neg (by simp [hd]), h.2]
  · have hd : Config.discards s.cfg dest = false := Bool.eq_false_iff.2 (h ∘ discards_iff.1)
    rw [if_neg h, if_pos ⟨rfl, hd⟩]

/-- A write-back is the register-write frame: what it reads at its destination is the one case where the
discarded write shows; no other field but pc and the report moves. -/
theorem writesRegister_writeBack (s : State) (dest : RegIdx) (val npc : Word) :
    WritesRegister s (s.writeBack dest val npc) dest val npc :=
  ⟨readReg_writeBack_dest s dest val npc, fun r hr => by simp [readReg_writeBack, hr],
    fun a => by rw [writeBack_mem], writeBack_pc .., writeBack_status .., writeBack_halt ..,
    writeBack_cfg .., writeBack_report ..⟩

/-- An instruction that answers a write-back at `pc0 + 4` completes within the frame (R80). -/
theorem writesRegister_of_exec {i : Instr} {s : State} {dest : RegIdx} {val : Word}
    (h : exec i s = .next (s.writeBack dest val s.pcPlus4)) :
    ∃ t, exec i s = .next t ∧ WritesRegister s t dest val (s.pc + 4) :=
  ⟨_, h, writesRegister_writeBack s dest val s.pcPlus4⟩

/-- Settles O1: each of the seven answers a write-back to `rd`. The model's `pcPlus4`, SLT condition and
shifts are the spec's formulas by definition. -/
theorem registerAluResultAndFrame : Obligations.RegisterAluResultAndFrame := by
  unfold Obligations.RegisterAluResultAndFrame
  intro s rs rt rd sh
  exact ⟨writesRegister_of_exec (exec_addu ..), writesRegister_of_exec (exec_subu ..),
    writesRegister_of_exec (exec_and ..), writesRegister_of_exec (exec_or ..),
    writesRegister_of_exec (exec_slt ..), writesRegister_of_exec (exec_sll ..),
    writesRegister_of_exec (exec_srl ..)⟩

end Sys2Proof.Machine
end

section
/-! PROOFS. The immediate ALU instructions: the register-write frame at `rt`
(spec/41_alu_immediate.md R90 to R94). -/

namespace Sys2Proof.Machine

open Sys2Proof.Claims

/-- The decided policy is the sign extension of R59 (R92, R93, D4). -/
theorem logicalImmediate_of_sign {c : Config} (hc : c.logImmExt = .sign) (imm16 : Imm16) :
    logicalImmediate c imm16 = imm16.signExtend 32 := by
  rw [logicalImmediate, hc]; rfl

/-- Settles O2: each of the four answers a write-back to `rt`. For ADDIU and LUI the value is the spec's
formula by definition; ANDI and ORI need the policy. -/
theorem immediateAluResultAndFrame : Obligations.ImmediateAluResultAndFrame := by
  unfold Obligations.ImmediateAluResultAndFrame
  intro s rs rt imm16
  refine ⟨writesRegister_of_exec (exec_addiu ..), writesRegister_of_exec (exec_lui ..), fun hc => ?_⟩
  rw [← logicalImmediate_of_sign hc imm16]
  exact ⟨writesRegister_of_exec (exec_andi ..), writesRegister_of_exec (exec_ori ..)⟩

end Sys2Proof.Machine
end

section
/-! PROOFS. The address check that LW and SW share (spec/42_load_store.md R100, R104). -/

namespace Sys2Proof.Machine

open Sys2Proof.Claims

/-- The three ways for a data address to be invalid (R35, R100). -/
theorem not_dataValid_iff {c : Config} {a : Word} :
    ¬ dataValid c a ↔ a.toNat % 4 ≠ 0 ∨ a.toNat < c.dbase ∨ c.memend ≤ a.toNat := by
  simp only [dataValid]; omega

/-- `enterHalt` is the halting step of R155: it has the halting frame in every state. -/
theorem haltsWith_enterHalt (s : State) (r : HaltRecord) : HaltsWith s (s.enterHalt r) r :=
  ⟨enterHalt_status .., enterHalt_halt .., enterHalt_readReg s r, fun a => by rw [enterHalt_mem],
    enterHalt_pc .., enterHalt_cfg .., enterHalt_report ..⟩

/-- LW and SW have one form: the address check guards a state with the status kept and pc advanced by 4
(R100, R104). -/
theorem exec_loadStore {i : Instr} {rs rt : RegIdx} {imm16 : Imm16} (s : State)
    (hi : i = .lw rs rt imm16 ∨ i = .sw rs rt imm16) :
    ∃ u, exec i s = .next (s.accessData (s.effectiveAddress rs imm16) u) ∧
      u.status = s.status ∧ u.pc = s.pc + 4 := by
  rcases hi with rfl | rfl
  · exact ⟨_, exec_lw .., writeBack_status .., writeBack_pc ..⟩
  · exact ⟨_, exec_sw .., (complete_status ..).trans (memWrite_status ..), complete_pc ..⟩

/-- Settles O9: the invalid addresses are those that fail the check, which then halts; the others let the
guarded state through. -/
theorem dataAddressValidity : Obligations.DataAddressValidity := by
  unfold Obligations.DataAddressValidity
  intro s rs rt imm16 hs ea i hi
  obtain ⟨u, hx, hust, hupc⟩ := exec_loadStore s hi
  refine ⟨s.accessData ea u, hx, fun hbad => ?_, fun hok => ?_⟩
  · rw [accessData_invalid (not_dataValid_iff.2 hbad)]
    exact haltsWith_enterHalt ..
  · rw [accessData_valid (not_not.1 (mt not_dataValid_iff.1 hok))]
    exact ⟨hust.trans hs, hupc⟩

/-- A LW or SW that leaves a running core advances pc by 4 (R104). -/
theorem exec_loadStore_pc {i : Instr} {s t : State} {rs rt : RegIdx} {imm16 : Imm16}
    (hi : i = .lw rs rt imm16 ∨ i = .sw rs rt imm16) (h : exec i s = .next t) (hr : t.status = .running) :
    t.pc = s.pc + 4 := by
  obtain ⟨u, hx, -, hupc⟩ := exec_loadStore s hi
  cases hx.symm.trans h
  rw [(accessData_of_running hr).2, hupc]

/-- Every effect but a store leaves memory alone, and a store advances pc by 4 (R104). -/
theorem Effect.mem_eq_of_pc_ne {i : Instr} {s t : State} (he : Effect i s t) (hpc : t.pc ≠ s.pc + 4) :
    t.mem = s.mem := by
  cases he with
  | writeBack dest val npc => exact writeBack_mem ..
  | transfer npc => exact complete_mem ..
  | store rs rt imm16 hi hv => exact absurd (complete_pc ..) hpc
  | zeroWord hi => exact enterHalt_mem ..
  | badAddress rs rt imm16 hi hv => exact enterHalt_mem ..

/-- Settles O12: a LW or SW that completes has moved pc by 4, so a completed step with another pc was
neither, and its effect was no store. -/
theorem memoryAndControlAreDisjoint : Obligations.MemoryAndControlAreDisjoint := by
  unfold Obligations.MemoryAndControlAreDisjoint
  intro i s t _ h hr
  have hpc4 : (∃ rs rt imm16, i = .lw rs rt imm16 ∨ i = .sw rs rt imm16) → t.pc = s.pc + 4 :=
    fun ⟨_, _, _, hi⟩ => exec_loadStore_pc hi h hr
  exact ⟨hpc4, fun hpc => ⟨mt hpc4 hpc, fun a => by rw [(exec_effect h).mem_eq_of_pc_ne hpc]⟩⟩

end Sys2Proof.Machine
end

section
/-! PROOFS. The data address exception and the zero word (spec/60_exceptions.md R151, R153). -/

namespace Sys2Proof.Machine

open Sys2Proof.Claims

/-- LW and SW at an invalid address take the halting step with the address (R100, R153). -/
theorem exec_loadStore_invalid {i : Instr} {s : State} {rs rt : RegIdx} {imm16 : Imm16}
    (hi : i = .lw rs rt imm16 ∨ i = .sw rs rt imm16) (hv : ¬ dataValid s.cfg (s.effectiveAddress rs imm16)) :
    exec i s = .next (s.enterHalt (.memoryAccess s.pc (s.effectiveAddress rs imm16))) := by
  obtain ⟨u, hx, -, -⟩ := exec_loadStore s hi
  rw [hx, accessData_invalid hv]

/-- The one effect that brings a running core to a record with cause `MemoryAccess` is the failed address
check of LW and SW: the effects that complete keep the status, and HALT has its own cause. -/
theorem Effect.badAddress_of_memoryAccess {i : Instr} {s t : State} {h : HaltRecord} (he : Effect i s t)
    (hs : s.status = .running) (ht : t.status = .halted) (hh : t.halt = some h)
    (hc : h.cause = .memoryAccess) :
    ∃ rs rt imm16, (i = .lw rs rt imm16 ∨ i = .sw rs rt imm16) ∧
      ¬ dataValid s.cfg (s.effectiveAddress rs imm16) ∧
      t = s.enterHalt h ∧ h = .memoryAccess s.pc (s.effectiveAddress rs imm16) := by
  cases he with
  | writeBack dest val npc => simp [hs] at ht
  | transfer npc => simp [hs] at ht
  | store rs rt imm16 hi hv => simp [hs] at ht
  | zeroWord hi => cases hh; cases hc
  | badAddress rs rt imm16 hi hv => cases hh; exact ⟨rs, rt, imm16, hi, hv, rfl, rfl⟩

/-- Settles O10: the cause has its one source in the failed address check, and a LW or SW at an invalid
address fails it. -/
theorem onlyLoadsAndStoresRaiseMemoryAccess : Obligations.OnlyLoadsAndStoresRaiseMemoryAccess := by
  unfold Obligations.OnlyLoadsAndStoresRaiseMemoryAccess
  intro i s t hs hx
  refine ⟨⟨?_, ?_⟩, ?_⟩
  · rintro ⟨h, ht, hh, hc⟩
    obtain ⟨rs, rt, imm16, hi, hv, -, -⟩ := (exec_effect hx).badAddress_of_memoryAccess hs ht hh hc
    exact ⟨rs, rt, imm16, hi, not_dataValid_iff.1 hv⟩
  · rintro ⟨rs, rt, imm16, hi, hbad⟩
    cases (exec_loadStore_invalid hi (not_dataValid_iff.2 hbad)).symm.trans hx
    exact ⟨_, enterHalt_status .., enterHalt_halt .., rfl⟩
  · intro h ht hh hc
    obtain ⟨rs, rt, imm16, hi, -, rfl, hrec⟩ := (exec_effect hx).badAddress_of_memoryAccess hs ht hh hc
    exact ⟨_, hrec, haltsWith_enterHalt s h, rs, rt, imm16, hi, rfl⟩

/-- The zero word is tested before any field is looked at (R68). -/
theorem decode_zero : decode 0 = .ok .halt := rfl

/-- Settles O20: the step of a zero word is the meaning of HALT, the halting step with cause `ZeroWord`. -/
theorem zeroWordHalts : Obligations.ZeroWordHalts := by
  unfold Obligations.ZeroWordHalts
  refine ⟨decode_zero, fun s => ⟨_, exec_halt s, haltsWith_enterHalt ..⟩, fun s hc hs hv hw => ?_⟩
  have hstep : step s = exec .halt s := step_eq_exec hc hs hv (by rw [hw, decode_zero])
  exact ⟨_, hstep.trans (exec_halt s), haltsWith_enterHalt ..,
    ⟨enterHalt_status .., s.pc, enterHalt_halt ..⟩, rfl⟩

end Sys2Proof.Machine
end

section
/-! PROOFS. The loader (spec/70_reset_and_hazards.md R182, R184). -/

namespace Sys2Proof.Machine

/-- Storing words leaves every address that is none of theirs alone. -/
theorem read_storeWords_other (m : Memory) {a b : Nat} (ws : List Word)
    (h : ∀ k, k < ws.length → b ≠ a + 4 * k) : (m.storeWords a ws).read b = m.read b := by
  induction ws generalizing m a with
  | nil => rfl
  | cons w rest ih =>
    have hfirst : b ≠ a := h 0 (Nat.zero_lt_succ _)
    have hrest : ∀ k, k < rest.length → b ≠ a + 4 + 4 * k := fun k hk => by
      have := h (k + 1) (Nat.succ_lt_succ hk)
      omega
    rw [Memory.storeWords, ih _ hrest, read_write_other _ _ hfirst]

/-- Word `k` of the stored words reads back `4k` above the first address. -/
theorem read_storeWords_word (m : Memory) (a : Nat) (ws : List Word) {k : Nat} (hk : k < ws.length) :
    (m.storeWords a ws).read (a + 4 * k) = ws[k] := by
  induction ws generalizing m a k with
  | nil => nomatch hk
  | cons w rest ih =>
    rw [Memory.storeWords]
    cases k with
    | zero => rw [read_storeWords_below _ _ (by omega)]; exact read_write_same m a w
    | succ k =>
      rw [show a + 4 * (k + 1) = a + 4 + 4 * k by omega, ih _ _ (Nat.lt_of_succ_lt_succ hk)]
      rfl

theorem load_of_fits {s : State} {program : List Word} (h : program.length ≤ s.cfg.isize / 4) :
    s.load program = some { s with mem := s.mem.storeWords s.cfg.ibase program } := if_pos h

theorem load_of_tooLong {s : State} {program : List Word} (h : s.cfg.isize / 4 < program.length) :
    s.load program = none := if_neg (Nat.not_le.2 h)

/-- An accepted load stores the words from `IBASE` on and changes nothing but memory (R184). -/
theorem load_eq_some {s t : State} {program : List Word} (h : s.load program = some t) :
    program.length ≤ s.cfg.isize / 4 ∧
      t = { s with mem := s.mem.storeWords s.cfg.ibase program } := by
  by_cases hfit : program.length ≤ s.cfg.isize / 4
  · rw [load_of_fits hfit, Option.some.injEq] at h
    exact ⟨hfit, h.symm⟩
  · rw [load_of_tooLong (Nat.not_le.1 hfit)] at h
    nomatch h

/-- In the launch state every address that holds no program word reads zero (R184). -/
theorem launch_read_other {c : Config} {t : State} {program : List Word} (h : launch c program = some t)
    {a : Nat} (ha : ∀ k, k < program.length → a ≠ c.ibase + 4 * k) : t.mem.read a = 0 := by
  obtain ⟨-, rfl⟩ := load_eq_some h
  exact (read_storeWords_other _ program ha).trans (read_nil a)

/-- The words of a program that fits lie below the data region (R184). -/
theorem programWord_below_dbase {c : Config} {k n : Nat} (hfit : n ≤ c.isize / 4) (hk : k < n) :
    c.ibase + 4 * k < c.dbase := by
  have : c.dbase = c.ibase + c.isize := rfl
  omega

/-- Settles O38: the loader is `storeWords` behind a length test, so what it stores and leaves alone are
the two read rules of `storeWords`, and the data region is left alone since the words lie below it. -/
theorem loaderPlacesProgram : Obligations.LoaderPlacesProgram := by
  unfold Obligations.LoaderPlacesProgram
  intro s program _
  refine ⟨load_of_tooLong, fun hfit => ⟨_, load_of_fits hfit, ?words, ?others, ?data,
    fun _ => rfl, rfl, rfl, rfl, rfl, rfl⟩, fun t ht a ha => launch_read_other ht ha⟩
  case words => exact fun k hk => read_storeWords_word _ _ _ hk
  case others => exact fun a ha => read_storeWords_other _ _ ha
  case data =>
    intro a ha
    have hbelow : ∀ k, k < program.length → a ≠ s.cfg.ibase + 4 * k := fun k hk =>
      (Nat.lt_of_lt_of_le (programWord_below_dbase hfit hk) ha).ne'
    exact read_storeWords_other _ _ hbelow

end Sys2Proof.Machine
end

section
/-! PROOFS. Decoding the word of a well-formed instruction (spec/30_encoding.md R64, R67, R86). -/

namespace Sys2Proof

/-- A shift-left whose fields are not all 0 is not the zero word (R64, R86). -/
theorem registerWord_sll_ne_zero {rs rt rd : RegIdx} {sh : Shamt}
    (hwf : (Instr.sll rs rt rd sh).wellFormed = true) : registerWord rs rt rd sh fnSll ≠ 0 := by
  intro hzero
  have hrs : rs = 0 := by rw [← fieldRs_registerWord fnSll rs rt rd sh, hzero]; rfl
  have hrt : rt = 0 := by rw [← fieldRt_registerWord fnSll rs rt rd sh, hzero]; rfl
  have hrd : rd = 0 := by rw [← fieldRd_registerWord fnSll rs rt rd sh, hzero]; rfl
  have hsh : sh = 0 := by rw [← fieldShamt_registerWord fnSll rs rt rd sh, hzero]; rfl
  subst hrs hrt hrd hsh
  exact absurd hwf (by decide)

/-- The guards of a register-format instruction, met by the word built from its fields. -/
theorem decodes_registerWord {mk : RegIdx → RegIdx → RegIdx → Shamt → Instr} {fn : BitVec 6}
    {rs rt rd : RegIdx} {sh : Shamt} (h0 : registerWord rs rt rd sh fn ≠ 0)
    (h : ∀ {w : Word}, w ≠ 0 → fieldOp w = opRegister → fieldFunct w = fn →
      Decodes w (mk (fieldRs w) (fieldRt w) (fieldRd w) (fieldShamt w))) :
    Decodes (registerWord rs rt rd sh fn) (mk rs rt rd sh) := by
  simpa only [fieldRs_registerWord, fieldRt_registerWord, fieldRd_registerWord, fieldShamt_registerWord]
    using h h0 (fieldOp_registerWord ..) (fieldFunct_registerWord ..)

/-- A register-format word with a function code other than 0 is not the zero word. -/
theorem registerWord_ne_zero {rs rt rd : RegIdx} {sh : Shamt} {fn : BitVec 6} (hfn : fn ≠ 0) :
    registerWord rs rt rd sh fn ≠ 0 :=
  ne_zero_of_fieldFunct (by rwa [fieldFunct_registerWord])

/-- The guard of an immediate-format instruction, met by the word built from its fields. -/
theorem decodes_immediateWord {mk : RegIdx → RegIdx → Imm16 → Instr} {op : BitVec 6}
    {rs rt : RegIdx} {imm16 : Imm16}
    (h : ∀ {w : Word}, fieldOp w = op → Decodes w (mk (fieldRs w) (fieldRt w) (fieldImm16 w))) :
    Decodes (immediateWord op rs rt imm16) (mk rs rt imm16) := by
  simpa only [fieldRs_immediateWord, fieldRt_immediateWord, fieldImm16_immediateWord]
    using h (fieldOp_immediateWord op rs rt imm16)

/-- The guard of a jump-format instruction, met by the word built from its field. -/
theorem decodes_jumpWord {mk : Target26 → Instr} {op : BitVec 6} {target26 : Target26}
    (h : ∀ {w : Word}, fieldOp w = op → Decodes w (mk (fieldTarget26 w))) :
    Decodes (jumpWord op target26) (mk target26) := by
  simpa only [fieldTarget26_jumpWord] using h (fieldOp_jumpWord op target26)

/-- The word of a well-formed instruction meets the decoder's guards for that instruction. -/
theorem decodes_encode {i : Instr} (hwf : i.wellFormed = true) : Decodes (encode i) i := by
  cases i with
  | halt => exact .halt rfl
  | sll _ _ _ _ => exact decodes_registerWord (registerWord_sll_ne_zero hwf) .sll
  | srl _ _ _ _ => exact decodes_registerWord (registerWord_ne_zero (by decide)) .srl
  | jr _ _ _ _ => exact decodes_registerWord (registerWord_ne_zero (by decide)) .jr
  | addu _ _ _ _ => exact decodes_registerWord (registerWord_ne_zero (by decide)) .addu
  | subu _ _ _ _ => exact decodes_registerWord (registerWord_ne_zero (by decide)) .subu
  | and _ _ _ _ => exact decodes_registerWord (registerWord_ne_zero (by decide)) .and
  | or _ _ _ _ => exact decodes_registerWord (registerWord_ne_zero (by decide)) .or
  | slt _ _ _ _ => exact decodes_registerWord (registerWord_ne_zero (by decide)) .slt
  | addiu _ _ _ => exact decodes_immediateWord .addiu
  | andi _ _ _ => exact decodes_immediateWord .andi
  | ori _ _ _ => exact decodes_immediateWord .ori
  | lui _ _ _ => exact decodes_immediateWord .lui
  | beq _ _ _ => exact decodes_immediateWord .beq
  | bne _ _ _ => exact decodes_immediateWord .bne
  | lw _ _ _ => exact decodes_immediateWord .lw
  | sw _ _ _ => exact decodes_immediateWord .sw
  | j _ => exact decodes_jumpWord .j
  | jal _ => exact decodes_jumpWord .jal

/-- Settles O42: the encoded word meets the decoder's guards for its instruction. -/
theorem decodeOfEncode : Obligations.DecodeOfEncode := by
  unfold Obligations.DecodeOfEncode
  exact fun i hwf => decode_of_decodes (decodes_encode hwf)

end Sys2Proof
end

section
/-! PROOFS. A step of a running core halts exactly when some halt record is true of the state, and then
with that record; otherwise an instruction completes (spec/60_exceptions.md R151 to R156). -/

namespace Sys2Proof.Machine

/-- HALT is the zero word and no other (R64). -/
theorem eq_zero_of_decode_halt {w : Word} (h : decode w = .ok .halt) : w = 0 := by
  cases decodes_of_decode h with
  | halt h0 => exact h0

/-- The records speak of what `enterHalt` leaves alone. -/
theorem recordTrue_enterHalt {s : State} {r h : HaltRecord} : (s.enterHalt r).RecordTrue h ↔ s.RecordTrue h := by
  cases h <;> exact Iff.rfl

/-- A true record names the pc as the address of the halting instruction (R155). -/
theorem recordTrue_haltPc {s : State} {h : HaltRecord} (ht : s.RecordTrue h) : h.haltPc = s.pc := by
  cases h with
  | zeroWord _ | illegalInstruction _ _ | memoryAccess _ _ | fetchFault _ => exact ht.1

/-- The step of a running core halts with the record that fetch or decode raised (R156). -/
theorem step_eq_enterHalt {s : State} {r : HaltRecord} (hc : s.cfg.WF) (hs : s.status = .running)
    (hf : s.fetchInstr = .error r) : step s = .next (s.enterHalt r) := by
  rw [step, if_pos hc, hs]
  simp only [hf]

/-- The step of a running core is the meaning of the instruction that fetch and decode give. -/
theorem step_eq_exec_of_fetch {s : State} {i : Instr} (hc : s.cfg.WF) (hs : s.status = .running)
    (hf : s.fetchInstr = .ok i) : step s = exec i s := by
  rw [step, if_pos hc, hs]
  simp only [hf]

/-- A record that is true of a running core is the one its step halts with. -/
theorem step_of_recordTrue {s : State} {h : HaltRecord} (hc : s.cfg.WF) (hs : s.status = .running)
    (ht : s.RecordTrue h) : step s = .next (s.enterHalt h) := by
  cases h with
  | zeroWord pc =>
    obtain ⟨rfl, hv, hz⟩ := ht
    rw [step_eq_exec hc hs hv (hz ▸ decode_zero), exec_halt]
  | illegalInstruction pc w =>
    obtain ⟨rfl, hv, rfl, e, hd⟩ := ht
    exact step_eq_enterHalt hc hs (fetchInstr_illegal hv hd)
  | memoryAccess pc a =>
    obtain ⟨rfl, hv, hbad, rs, rt, imm16, rfl, hd⟩ := ht
    rcases hd with hd | hd
    · rw [step_eq_exec hc hs hv hd, exec_loadStore_invalid (.inl rfl) hbad]
    · rw [step_eq_exec hc hs hv hd, exec_loadStore_invalid (.inr rfl) hbad]
  | fetchFault pc =>
    obtain ⟨rfl, hv⟩ := ht
    exact step_eq_enterHalt hc hs (fetchInstr_invalid hv)

/-- A step asked of a halted core answers the same state (R144). -/
theorem step_halted {s : State} (hc : s.cfg.WF) (hs : s.status = .halted) : step s = .next s := by
  rw [step, if_pos hc, hs]; rfl

/-- What a step of a running core leaves: the halting step with a record that is true, or the state of an
instruction that completed, with status and record as they were. -/
inductive StepEnd (s : State) : State → Prop
  | halts (h : HaltRecord) (ht : s.RecordTrue h) : StepEnd s (s.enterHalt h)
  | completes (i : Instr) (t : State) (hd : decode (s.memRead s.pc) = .ok i) (hx : exec i s = .next t)
      (hst : t.status = .running) (hh : t.halt = s.halt) : StepEnd s t

/-- Inversion of the step of a running core by how it ends. -/
theorem stepEnd_of_step {s t : State} (hs : s.status = .running) (h : step s = .next t) : StepEnd s t := by
  obtain ⟨hc, hcase⟩ := step_cases h
  cases hcase with
  | halted hh => simp [hs] at hh
  | fetchFault _ hv => exact .halts _ ⟨rfl, hv⟩
  | illegal _ hv e hd => exact .halts _ ⟨rfl, hv, rfl, e, hd⟩
  | run _ hv i hd _ he =>
    have hx : exec i s = .next t := step_eq_exec hc hs hv hd ▸ h
    cases he with
    | writeBack _ _ _ | transfer _ | store _ _ _ _ _ => exact .completes i _ hd hx (by simpa using hs) (by simp)
    | zeroWord hi => exact .halts _ ⟨rfl, hv, eq_zero_of_decode_halt (hi ▸ hd)⟩
    | badAddress rs rt imm16 hi hbad =>
      have hd' : decode (s.memRead s.pc) = .ok (.lw rs rt imm16) ∨
          decode (s.memRead s.pc) = .ok (.sw rs rt imm16) := hi.imp (hd.trans ∘ congrArg _) (hd.trans ∘ congrArg _)
      exact .halts _ ⟨rfl, hv, hbad, rs, rt, imm16, rfl, hd'⟩

/-- A step of a running core that leaves it Halted took the halting step with a true record (R155). -/
theorem recordTrue_of_step_halted {s t : State} (hs : s.status = .running) (h : step s = .next t)
    (ht : t.status = .halted) : ∃ r, s.RecordTrue r ∧ t = s.enterHalt r := by
  cases stepEnd_of_step hs h with
  | halts r hr => exact ⟨r, hr, rfl⟩
  | completes i t hd hx hst hh => simp [hst] at ht

/-- From a running core with no record, the record after a step is `h` exactly when `h` is true. -/
theorem step_halt_eq_some_iff {s t : State} {h : HaltRecord} (hs : s.status = .running)
    (hn : s.halt = none) (hstep : step s = .next t) : t.halt = some h ↔ s.RecordTrue h := by
  constructor
  · intro hh
    cases stepEnd_of_step hs hstep with
    | halts r hr => cases hh; exact hr
    | completes i t hd hx hst hk => simp [hk, hn] at hh
  · intro ht
    cases (step_of_recordTrue (step_cases hstep).1 hs ht).symm.trans hstep
    exact enterHalt_halt ..

end Sys2Proof.Machine
end

section
/-! PROOFS. The invariant: each operation over the state keeps it, so every step does
(spec/10_state.md R18, spec/20_memory.md R30 to R32, spec/49_instruction_cycle.md R142, R143). -/

namespace Sys2Proof.Machine

/-- Of a running core the status clause asks that there is no record. -/
theorem statusTrue_of_running {s : State} (hs : s.status = .running) (hn : s.halt = none) : s.StatusTrue := by
  simpa only [State.StatusTrue, hs] using hn

theorem State.Inv.halt_none {s : State} (h : s.Inv) (hs : s.status = .running) : s.halt = none := by
  simpa only [State.StatusTrue, hs] using h.status

/-- A halting step with a true record keeps the invariant: the record stays true, as it speaks of
nothing the step changes. -/
theorem inv_enterHalt {s : State} {r : HaltRecord} (h : s.Inv) (hr : s.RecordTrue r) : (s.enterHalt r).Inv where
  configuration := h.configuration
  canonical := h.canonical
  inImage := h.inImage
  hardwired := h.hardwired
  status := ⟨r, rfl, recordTrue_enterHalt.2 hr⟩
  report := h.report

section Running

variable {s : State} (h : s.Inv) (hs : s.status = .running)
include h hs

/-- A register write keeps the invariant: where register 0 is hard-wired, writes to it are discarded. -/
theorem inv_writeReg (dest : RegIdx) (val : Word) : (s.writeReg dest val).Inv where
  configuration := by rw [writeReg_cfg]; exact h.configuration
  canonical := by rw [writeReg_mem]; exact h.canonical
  inImage := by rw [writeReg_cfg, writeReg_mem]; exact h.inImage
  hardwired hw := by
    rw [writeReg_cfg] at hw
    have hkept : ¬ (0 = dest ∧ Config.discards s.cfg dest = false) := by
      rintro ⟨rfl, hd⟩
      nomatch (discards_iff.2 ⟨hw, rfl⟩).symm.trans hd
    rw [readReg_writeReg, if_neg hkept]
    exact h.hardwired hw
  status := statusTrue_of_running ((writeReg_status ..).trans hs) ((writeReg_halt ..).trans (h.halt_none hs))
  report := by
    simpa only [State.ReportTrue, writeReg_report, writeReg_pc, writeReg_cfg] using h.report

/-- A canonical memory of the image keeps the invariant in place of the old one. -/
theorem inv_withMem {m : Memory} (hm : m.wf) (hi : m.InImage s.cfg) : ({ s with mem := m } : State).Inv where
  configuration := h.configuration
  canonical := hm
  inImage := hi
  hardwired := h.hardwired
  status := statusTrue_of_running hs (h.halt_none hs)
  report := h.report

/-- A store to a valid data address keeps the invariant. -/
theorem inv_memWrite {a : Word} (ha : dataValid s.cfg a) (v : Word) : (s.memWrite a v).Inv :=
  inv_withMem h hs (wf_write h.canonical _ _) (inImage_write h.inImage v (dataValid_inImage ha))

/-- The end of a step keeps the invariant when its report names at most one change, and of addresses only
a valid data address. -/
theorem inv_complete {changedReg : Option RegIdx} {changedMem : Option Word}
    (hone : changedReg = none ∨ changedMem = none) (hmem : ∀ a, changedMem = some a → dataValid s.cfg a)
    (npc : Word) : (s.complete changedReg changedMem npc).Inv where
  configuration := h.configuration
  canonical := h.canonical
  inImage := h.inImage
  hardwired := h.hardwired
  status := statusTrue_of_running hs (h.halt_none hs)
  report r hr := by
    cases hr
    exact ⟨rfl, hone, hmem⟩

/-- Every effect of an instruction that leaves a running core keeps the invariant. -/
theorem inv_of_effect {i : Instr} {t : State} (he : Effect i s t) (ht : t.status = .running) : t.Inv := by
  cases he with
  | writeBack dest val npc =>
    exact inv_complete (inv_writeReg h hs dest val) ((writeReg_status ..).trans hs) (.inr rfl) (by simp) npc
  | transfer npc => exact inv_complete h hs (.inl rfl) (by simp) npc
  | store rs rt imm16 hi hv =>
    exact inv_complete (inv_memWrite h hs hv _) ((memWrite_status ..).trans hs) (.inl rfl)
      (fun a ha => Option.some.inj ha ▸ hv) _
  | zeroWord hi => nomatch ht
  | badAddress rs rt imm16 hi hv => nomatch ht

end Running

/-- Settles O37: a halted core answers itself, a halting step latches a true record, and a completed
instruction is one of the effects, each of which keeps the invariant. -/
theorem stepKeepsInvariant : Obligations.StepKeepsInvariant := by
  unfold Obligations.StepKeepsInvariant
  intro s t hinv h
  cases hs : s.status with
  | halted => cases (step_halted hinv.configuration hs).symm.trans h; exact hinv
  | running =>
    cases stepEnd_of_step hs h with
    | halts r hr => exact inv_enterHalt hinv hr
    | completes i t hd hx hst hh => exact inv_of_effect hinv hs (exec_effect hx) hst

end Sys2Proof.Machine
end

section
/-! PROOFS. What the values of SLT, LUI and ADDIU are as numbers and as bits (spec/40_alu_register.md R85,
spec/41_alu_immediate.md R94, spec/30_encoding.md R59), and the zero-extended alternative of R92 and R93. -/

namespace Sys2Proof.Machine

open Sys2Proof.Claims

/-- The destination of a write that is not discarded holds the value (R139). -/
theorem readReg_writeBack_kept {s : State} {dest : RegIdx} (hd : Config.discards s.cfg dest = false)
    (val npc : Word) : (s.writeBack dest val npc).readReg dest = val := by
  rw [readReg_writeBack, if_pos ⟨rfl, hd⟩]

/-- The SLT condition is the sign of the signed difference taken modulo `2^32` (R85). -/
theorem differenceIsNegative_iff (vs vt : Word) :
    differenceIsNegative vs vt = true ↔ (vs.toInt - vt.toInt).bmod (2 ^ 32) < 0 := by
  rw [differenceIsNegative, difference, ← BitVec.toInt_sub, ← BitVec.msb_eq_getLsbD_last,
    BitVec.msb_eq_toInt, decide_eq_true_eq]

/-- Where the signed difference fits in 32 bits the SLT condition is the signed comparison. -/
theorem differenceIsNegative_of_fits {vs vt : Word}
    (h : -(2 ^ 31) ≤ vs.toInt - vt.toInt ∧ vs.toInt - vt.toInt < 2 ^ 31) :
    differenceIsNegative vs vt = true ↔ vs.toInt < vt.toInt := by
  rw [differenceIsNegative_iff, Int.bmod_eq_of_le (by omega) (by omega)]
  omega

/-- Where it overflows, the wrapped difference has the other sign: it is off by `2^32` once. -/
theorem differenceIsNegative_of_overflows {vs vt : Word}
    (h : ¬ (-(2 ^ 31) ≤ vs.toInt - vt.toInt ∧ vs.toInt - vt.toInt < 2 ^ 31)) :
    differenceIsNegative vs vt = true ↔ ¬ vs.toInt < vt.toInt := by
  have hs := BitVec.le_toInt vs
  have ht := BitVec.le_toInt vt
  have hs' := BitVec.toInt_lt (x := vs)
  have ht' := BitVec.toInt_lt (x := vt)
  rw [differenceIsNegative_iff, Int.bmod_def]
  omega

/-- A condition kept as the word 1 or 0 (R85). -/
theorem ite_eq_one_iff (b : Bool) : (if b then 1 else 0 : Word) = 1 ↔ b = true := by
  cases b <;> decide

/-- Settles O4: SLT writes 1 exactly when its condition holds, and the wrapped difference has the sign of
the true one exactly when that fits. -/
theorem sltIsSignOfWrappedDifference : Obligations.SltIsSignOfWrappedDifference := by
  unfold Obligations.SltIsSignOfWrappedDifference
  intro s t rs rt rd sh hd hx d
  cases hx
  rw [readReg_writeBack_kept hd, ite_eq_one_iff]
  refine ⟨differenceIsNegative_of_fits, differenceIsNegative_of_overflows, ?_⟩
  cases differenceIsNegative (s.readReg rs) (s.readReg rt)
  · exact .inl rfl
  · exact .inr rfl

/-- Shifted left by 16 the immediate loses the bits in which the two extensions differ (R94). -/
theorem immediate_shift_16 (imm16 : Imm16) : immediate imm16 <<< 16 = imm16.zeroExtend 32 <<< 16 := by
  ext k hk
  by_cases hlow : k < 16
  · simp [hlow]
  · simp [immediate, sext32, hlow, BitVec.getElem_signExtend, show k - 16 < 16 by omega]

/-- Settles O5: LUI's value is the field shifted by 16, of which the two halves are read off. -/
theorem luiBuildsUpperHalf : Obligations.LuiBuildsUpperHalf := by
  unfold Obligations.LuiBuildsUpperHalf
  intro s t rs rt imm16 hd hx
  cases hx
  rw [readReg_writeBack_kept hd, immediate_shift_16]
  refine ⟨?upper, ?lower, rfl⟩
  case upper => ext k hk; simp [hk, show 16 + k < 32 by omega]
  case lower => ext k hk; simp [hk]

/-- The sign extension by cases on bit 15 (S2). -/
theorem immediate_eq_ite (imm16 : Imm16) : immediate imm16 =
    if imm16.getLsbD 15 then imm16.zeroExtend 32 ||| 0xFFFF0000 else imm16.zeroExtend 32 := by
  have hmsb : imm16.msb = imm16.getLsbD 15 := BitVec.msb_eq_getLsbD_last imm16
  rw [immediate, sext32]
  cases h15 : imm16.getLsbD 15
  · exact BitVec.signExtend_eq_setWidth_of_msb_false (hmsb.trans h15)
  · rw [BitVec.signExtend_eq_not_setWidth_not_of_msb_true (hmsb.trans h15)]
    ext k hk
    interval_cases k <;> simp

/-- Settles O6: added to 0, the immediate is the value, whose form is known. -/
theorem immediateSignExtends : Obligations.ImmediateSignExtends := by
  unfold Obligations.ImmediateSignExtends
  intro s t rs rt imm16 hd h0 hx
  cases hx
  rw [readReg_writeBack_kept hd, h0, ← immediate_eq_ite]
  exact BitVec.zero_add _

/-- The named alternative is the zero extension (R92, R93, D4). -/
theorem logicalImmediate_of_zero {c : Config} (hc : c.logImmExt = .zero) (imm16 : Imm16) :
    logicalImmediate c imm16 = imm16.zeroExtend 32 := by
  rw [logicalImmediate, hc]; rfl

/-- Settles O3: both instructions answer a write-back to `rt` with the immediate of the policy. -/
theorem logicalImmediateZeroAlternative : Obligations.LogicalImmediateZeroAlternative := by
  unfold Obligations.LogicalImmediateZeroAlternative
  intro s rs rt imm16 hc
  rw [← logicalImmediate_of_zero hc imm16]
  exact ⟨writesRegister_of_exec (exec_andi ..), writesRegister_of_exec (exec_ori ..)⟩

end Sys2Proof.Machine
end

section
/-! PROOFS. LW and SW at a valid address (spec/42_load_store.md R100, R102, R103). -/

namespace Sys2Proof.Machine

open Sys2Proof.Claims

/-- Settles O7: at a valid address LW is a write-back of the word there. -/
theorem loadWordCompletes : Obligations.LoadWordCompletes := by
  unfold Obligations.LoadWordCompletes
  intro s rs rt imm16 ea halign hlow hhigh
  exact writesRegister_of_exec (exec_lw_valid ⟨halign, hlow, hhigh⟩)

/-- A completed store has the store frame. -/
theorem storesWord_complete (s : State) (a v : Word) :
    StoresWord s ((s.memWrite a v).complete none (some a) s.pcPlus4) a v :=
  ⟨read_write_same .., fun _ hb => read_write_other _ _ hb, fun _ => rfl, rfl, rfl, rfl, rfl, rfl⟩

/-- SW at a valid data address completes with its word stored there (R100, R103). -/
theorem exec_sw_valid {s : State} {rs rt : RegIdx} {imm16 : Imm16}
    (hv : dataValid s.cfg (s.effectiveAddress rs imm16)) :
    exec (.sw rs rt imm16) s = .next ((s.memWrite (s.effectiveAddress rs imm16) (s.readReg rt)).complete none
      (some (s.effectiveAddress rs imm16)) s.pcPlus4) := by
  rw [exec_sw, accessData_valid hv]

/-- Settles O8: at a valid address SW is a completed store. -/
theorem storeWordCompletes : Obligations.StoreWordCompletes := by
  unfold Obligations.StoreWordCompletes
  intro s rs rt imm16 ea halign hlow hhigh
  exact ⟨rfl, _, exec_sw_valid ⟨halign, hlow, hhigh⟩, storesWord_complete ..⟩

end Sys2Proof.Machine
end

section
/-! PROOFS. Control transfer: the transfers complete, only JR can leave pc misaligned, and a bad target
faults at the next fetch (spec/43_control_transfer.md R110 to R118, spec/20_memory.md R34). -/

namespace Sys2Proof.Machine

open Sys2Proof.Claims

/-- The end of a step that names no change only moves pc (R110). -/
theorem onlyMovesPc_complete (s : State) (npc : Word) : OnlyMovesPc s (s.complete none none npc) npc :=
  ⟨fun _ => rfl, fun _ => rfl, rfl, rfl, rfl, rfl, rfl⟩

/-- `branchTarget` with the offset taken or 0, as the statements write it. -/
theorem branchTarget_ite (pc0 offset : Word) (p : Prop) [Decidable p] (b : Bool) (h : b = true ↔ p) :
    branchTarget pc0 (if b then offset else 0) = pc0 + 4 + (if p then offset else 0) := by
  simp only [h]; rfl

/-- Settles O13: both branches are bare changes of pc, and their condition is equality. -/
theorem branchesResultAndFrame : Obligations.BranchesResultAndFrame := by
  unfold Obligations.BranchesResultAndFrame
  intro s rs rt imm16
  refine ⟨⟨_, exec_beq .., ?_⟩, ⟨_, exec_bne .., ?_⟩⟩
  · rw [branchTarget_ite _ _ _ _ differenceIsZero_iff]
    exact onlyMovesPc_complete ..
  · rw [branchTarget_ite _ _ (s.readReg rs ≠ s.readReg rt) _ (by simp [← differenceIsZero_iff])]
    exact onlyMovesPc_complete ..

/-- Settles O14: J and JR are bare changes of pc, JAL is a write-back of the link value. -/
theorem jumpsResultAndFrame : Obligations.JumpsResultAndFrame := by
  unfold Obligations.JumpsResultAndFrame
  intro s target26 rs rt rd sh target
  exact ⟨⟨_, exec_j .., onlyMovesPc_complete ..⟩, ⟨_, exec_jal .., writesRegister_writeBack ..⟩,
    ⟨_, exec_jr .., onlyMovesPc_complete ..⟩⟩

/-- Settles O17: JAL leaves the link value in register 31, which is never discarded, and JR goes there. -/
theorem callThenReturn : Obligations.CallThenReturn := by
  unfold Obligations.CallThenReturn
  intro s t u target26 rt rd sh hjal hjr
  cases hjal
  cases hjr
  have hkept : Config.discards s.cfg linkRegister = false := discards_ne_zero _ (by decide)
  refine ⟨readReg_writeBack_kept hkept .., fun r hr => ?_, fun a => ?_⟩
  · rw [complete_readReg, readReg_writeBack, if_neg fun h => hr h.1]
  · rw [complete_mem, writeBack_mem]

/-- A multiple of 4 plus a word shifted left by 2 is a multiple of 4: 4 divides `2^32`. -/
theorem aligned_add_shift {a : Word} (ha : a.toNat % 4 = 0) (v : Word) : (a + (v <<< 2)).toNat % 4 = 0 := by
  rw [BitVec.toNat_add, BitVec.toNat_shiftLeft, Nat.shiftLeft_eq]
  omega

theorem aligned_add_four {a : Word} (ha : a.toNat % 4 = 0) : (a + 4).toNat % 4 = 0 :=
  aligned_add_shift ha 1

/-- The table of R16 keeps pc aligned in every row but JR's. -/
theorem pcAfter_aligned {i : Instr} {s : State} (hi : ∀ rs rt rd sh, i ≠ .jr rs rt rd sh)
    (hpc : s.pc.toNat % 4 = 0) : (pcAfter i s).toNat % 4 = 0 := by
  have hnext := aligned_add_four hpc
  cases i with
  | beq rs rt imm16 => rw [pcAfter]; split; exacts [aligned_add_shift hnext _, hnext]
  | bne rs rt imm16 => rw [pcAfter]; split; exacts [hnext, aligned_add_shift hnext _]
  | j target26 => exact jumpTarget_aligned ..
  | jal target26 => exact jumpTarget_aligned ..
  | jr rs rt rd sh => exact absurd rfl (hi rs rt rd sh)
  | _ => exact hnext

/-- Settles O18: a step leaves in pc the value of the table of R16 or the old one. -/
theorem onlyJrMisalignsPc : Obligations.OnlyJrMisalignsPc := by
  unfold Obligations.OnlyJrMisalignsPc
  intro s t hs hpc h hjr
  rcases step_running_cases hs h with ⟨r, rfl⟩ | ⟨i, hd, hx⟩
  · exact hpc
  · rcases exec_movesPcOrHalts hx with ⟨-, ht⟩ | ⟨-, ht⟩ <;> rw [ht]
    · exact pcAfter_aligned (fun rs rt rd sh hi => hjr rs rt rd sh (hi ▸ hd)) hpc
    · exact hpc

/-- The ways for a fetch address to be bad (R34). -/
theorem not_fetchValid_iff {c : Config} {a : Word} :
    ¬ fetchValid c a ↔ a.toNat % 4 ≠ 0 ∨ a.toNat < c.ibase ∨ c.ibase + c.isize ≤ a.toNat := by
  simp only [fetchValid, Config.dbase]; omega

/-- Settles O22: a bad fetch address makes the record `FetchFault` true. -/
theorem badFetchAddressHalts : Obligations.BadFetchAddressHalts := by
  unfold Obligations.BadFetchAddressHalts
  intro s hc hs hbad
  exact ⟨_, step_of_recordTrue (h := .fetchFault s.pc) hc hs ⟨rfl, not_fetchValid_iff.2 hbad⟩,
    haltsWith_enterHalt ..⟩

/-- The five control transfers complete in every state. -/
theorem exec_transfer_completes {i : Instr} (s : State)
    (hi : i.mnemonic = .BEQ ∨ i.mnemonic = .BNE ∨ i.mnemonic = .J ∨ i.mnemonic = .JAL ∨ i.mnemonic = .JR) :
    ∃ t, exec i s = .next t ∧ t.status = s.status ∧ t.cfg = s.cfg := by
  cases i with
  | beq rs rt imm16 => exact ⟨_, exec_beq .., complete_status .., complete_cfg ..⟩
  | bne rs rt imm16 => exact ⟨_, exec_bne .., complete_status .., complete_cfg ..⟩
  | j target26 => exact ⟨_, exec_j .., complete_status .., complete_cfg ..⟩
  | jal target26 => exact ⟨_, exec_jal .., writeBack_status .., writeBack_cfg ..⟩
  | jr rs rt rd sh => exact ⟨_, exec_jr .., complete_status .., complete_cfg ..⟩
  | _ => simp [Instr.mnemonic] at hi

/-- Settles O19: a transfer leaves a running core of the same configuration, and O22 speaks of its pc. -/
theorem badTargetFaultsAtNextFetch : Obligations.BadTargetFaultsAtNextFetch := by
  unfold Obligations.BadTargetFaultsAtNextFetch
  intro i s hc hs hi
  obtain ⟨t, hx, hst, hcfg⟩ := exec_transfer_completes s hi
  rw [← hcfg] at hc ⊢
  exact ⟨t, hx, hst.trans hs, badFetchAddressHalts t hc (hst.trans hs)⟩

end Sys2Proof.Machine
end

section
/-! PROOFS. Which words are illegal, by their opcode and function fields (spec/30_encoding.md R65, R66,
spec/44_halt_system.md R121). -/

namespace Sys2Proof

/-- The opcodes of R57. -/
abbrev listedOpcodes : List (BitVec 6) :=
  [0x00, 0x02, 0x03, 0x04, 0x05, 0x09, 0x0C, 0x0D, 0x0F, 0x23, 0x2B]

/-- The function codes of R58. -/
abbrev listedFuncts : List (BitVec 6) := [0x00, 0x02, 0x08, 0x21, 0x23, 0x24, 0x25, 0x2A]

/-- An accepted word that is not zero has an opcode of R57, and a function code of R58 under opcode 0. -/
theorem listed_of_decodes {w : Word} {i : Instr} (h : Decodes w i) (h0 : w ≠ 0) :
    fieldOp w ∈ listedOpcodes ∧ (fieldOp w = 0 → fieldFunct w ∈ listedFuncts) := by
  cases h with
  | halt hz => exact absurd hz h0
  | sll _ ho hf | srl _ ho hf | jr _ ho hf | addu _ ho hf | subu _ ho hf | and _ ho hf | or _ ho hf
  | slt _ ho hf => rw [ho, hf]; decide
  | j ho | jal ho | beq ho | bne ho | addiu ho | andi ho | ori ho | lui ho | lw ho | sw ho =>
    rw [ho]; exact ⟨by decide, nofun⟩

/-- Every other word is accepted. -/
theorem exists_decodes_of_listed {w : Word} (h0 : w ≠ 0) (hop : fieldOp w ∈ listedOpcodes)
    (hfn : fieldOp w = 0 → fieldFunct w ∈ listedFuncts) : ∃ i, Decodes w i := by
  simp only [List.mem_cons, List.not_mem_nil, or_false] at hop hfn
  rcases hop with ho | ho | ho | ho | ho | ho | ho | ho | ho | ho | ho
  · rcases hfn ho with hf | hf | hf | hf | hf | hf | hf | hf
    · exact ⟨_, .sll h0 ho hf⟩
    · exact ⟨_, .srl h0 ho hf⟩
    · exact ⟨_, .jr h0 ho hf⟩
    · exact ⟨_, .addu h0 ho hf⟩
    · exact ⟨_, .subu h0 ho hf⟩
    · exact ⟨_, .and h0 ho hf⟩
    · exact ⟨_, .or h0 ho hf⟩
    · exact ⟨_, .slt h0 ho hf⟩
  · exact ⟨_, .j ho⟩
  · exact ⟨_, .jal ho⟩
  · exact ⟨_, .beq ho⟩
  · exact ⟨_, .bne ho⟩
  · exact ⟨_, .addiu ho⟩
  · exact ⟨_, .andi ho⟩
  · exact ⟨_, .ori ho⟩
  · exact ⟨_, .lui ho⟩
  · exact ⟨_, .lw ho⟩
  · exact ⟨_, .sw ho⟩

/-- The words the decoder refuses: not zero, with an opcode outside R57 or opcode 0 with a function code
outside R58 (R65, R66, R121). -/
theorem decode_error_iff_unlisted {w : Word} : (∃ e, decode w = .error e) ↔ w ≠ 0 ∧
    ((fieldOp w = 0 ∧ fieldFunct w ∉ listedFuncts) ∨ fieldOp w ∉ listedOpcodes) := by
  rw [decode_error_iff]
  constructor
  · intro h
    have h0 : w ≠ 0 := fun hz => h _ (.halt hz)
    refine ⟨h0, ?_⟩
    by_contra hun
    obtain ⟨hfn, hop⟩ := not_or.1 hun
    obtain ⟨i, hi⟩ := exists_decodes_of_listed h0 (not_not.1 hop) fun ho => not_not.1 fun hf => hfn ⟨ho, hf⟩
    exact h i hi
  · rintro ⟨h0, hun⟩ i hi
    obtain ⟨hop, hfn⟩ := listed_of_decodes hi h0
    rcases hun with ⟨ho, hf⟩ | ho
    · exact hf (hfn ho)
    · exact ho hop

end Sys2Proof
end

section
/-! PROOFS. The decoder against the opcode table (spec/30_encoding.md R73, spec/opcode_table.json). -/

namespace Sys2Proof

theorem fieldOp_and (w mask : Word) : fieldOp (w &&& mask) = fieldOp w &&& fieldOp mask :=
  BitVec.extractLsb'_and ..

theorem fieldFunct_and (w mask : Word) : fieldFunct (w &&& mask) = fieldFunct w &&& fieldFunct mask :=
  BitVec.extractLsb'_and ..

/-- A mask that keeps the opcode field. -/
theorem fieldOp_of_and_eq {w mask pattern : Word} (hm : fieldOp mask = BitVec.allOnes 6)
    (h : w &&& mask = pattern) : fieldOp w = fieldOp pattern := by
  rw [← h, fieldOp_and, hm, BitVec.and_allOnes]

/-- A mask that keeps the function code. -/
theorem fieldFunct_of_and_eq {w mask pattern : Word} (hm : fieldFunct mask = BitVec.allOnes 6)
    (h : w &&& mask = pattern) : fieldFunct w = fieldFunct pattern := by
  rw [← h, fieldFunct_and, hm, BitVec.and_allOnes]

/-- The mask of a row selected by opcode clears everything but the opcode. -/
theorem jumpWord_and_mask (op : BitVec 6) (target26 : Target26) :
    jumpWord op target26 &&& 0xFC000000 = jumpWord op 0 := by
  rw [jumpWord, show (0xFC000000 : Word) = BitVec.allOnes 6 ++ 0#26 by decide,
    BitVec.and_append, BitVec.and_allOnes, BitVec.and_zero]
  rfl

/-- The mask of a row of the register format clears everything but the opcode and the function code. -/
theorem registerWord_and_mask (rs rt rd : RegIdx) (sh : Shamt) (fn : BitVec 6) :
    registerWord rs rt rd sh fn &&& 0xFC00003F = registerWord 0 0 0 0 fn := by
  show (opRegister ++ rs ++ rt ++ rd ++ sh ++ fn : BitVec (6 + 5 + 5 + 5 + 5 + 6)) &&&
    (BitVec.allOnes 6 ++ 0#5 ++ 0#5 ++ 0#5 ++ 0#5 ++ BitVec.allOnes 6) = _
  simp only [BitVec.and_append, BitVec.and_allOnes, BitVec.and_zero]
  rfl

theorem selects_halt_iff {w : Word} : OpcodeRow.selects ⟨.HALT, 0, 0xFFFFFFFF⟩ w = true ↔ w = 0 := by
  rw [OpcodeRow.selects, beq_iff_eq]
  exact Eq.congr_left BitVec.and_allOnes

/-- A row selected by opcode. -/
theorem selects_opcode {m : Mnemonic} {op : BitVec 6} {w : Word} (ho : fieldOp w = op) :
    OpcodeRow.selects ⟨m, jumpWord op 0, 0xFC000000⟩ w = true := by
  rw [OpcodeRow.selects, beq_iff_eq]
  exact jumpWord_of_fields ho ▸ jumpWord_and_mask ..

/-- A row of the register format. -/
theorem selects_funct {m : Mnemonic} {fn : BitVec 6} {w : Word} (ho : fieldOp w = opRegister)
    (hf : fieldFunct w = fn) : OpcodeRow.selects ⟨m, registerWord 0 0 0 0 fn, 0xFC00003F⟩ w = true := by
  rw [OpcodeRow.selects, beq_iff_eq]
  exact registerWord_of_fields ho hf ▸ registerWord_and_mask ..

/-- The row of each mnemonic, the pattern built by the encoder's formats. -/
def rowOf (m : Mnemonic) : OpcodeRow :=
  match m with
  | .HALT => ⟨.HALT, 0, 0xFFFFFFFF⟩
  | .ADDU => ⟨.ADDU, registerWord 0 0 0 0 fnAddu, 0xFC00003F⟩
  | .SUBU => ⟨.SUBU, registerWord 0 0 0 0 fnSubu, 0xFC00003F⟩
  | .AND => ⟨.AND, registerWord 0 0 0 0 fnAnd, 0xFC00003F⟩
  | .OR => ⟨.OR, registerWord 0 0 0 0 fnOr, 0xFC00003F⟩
  | .SLT => ⟨.SLT, registerWord 0 0 0 0 fnSlt, 0xFC00003F⟩
  | .SLL => ⟨.SLL, registerWord 0 0 0 0 fnSll, 0xFC00003F⟩
  | .SRL => ⟨.SRL, registerWord 0 0 0 0 fnSrl, 0xFC00003F⟩
  | .JR => ⟨.JR, registerWord 0 0 0 0 fnJr, 0xFC00003F⟩
  | .ADDIU => ⟨.ADDIU, jumpWord opAddiu 0, 0xFC000000⟩
  | .ANDI => ⟨.ANDI, jumpWord opAndi 0, 0xFC000000⟩
  | .ORI => ⟨.ORI, jumpWord opOri 0, 0xFC000000⟩
  | .LUI => ⟨.LUI, jumpWord opLui 0, 0xFC000000⟩
  | .BEQ => ⟨.BEQ, jumpWord opBeq 0, 0xFC000000⟩
  | .BNE => ⟨.BNE, jumpWord opBne 0, 0xFC000000⟩
  | .LW => ⟨.LW, jumpWord opLw 0, 0xFC000000⟩
  | .SW => ⟨.SW, jumpWord opSw 0, 0xFC000000⟩
  | .J => ⟨.J, jumpWord opJ 0, 0xFC000000⟩
  | .JAL => ⟨.JAL, jumpWord opJal 0, 0xFC000000⟩

theorem rowOf_mem (m : Mnemonic) : rowOf m ∈ opcodeTable := by
  cases m <;> decide

@[simp] theorem rowOf_mnemonic (m : Mnemonic) : (rowOf m).mnemonic = m := by cases m <;> rfl

/-- An accepted word selects the row of its instruction. -/
theorem selects_of_decodes {w : Word} {i : Instr} (h : Decodes w i) : (rowOf i.mnemonic).selects w = true := by
  cases h with
  | halt h0 => exact selects_halt_iff.2 h0
  | sll _ ho hf | srl _ ho hf | jr _ ho hf | addu _ ho hf | subu _ ho hf | and _ ho hf | or _ ho hf
  | slt _ ho hf => exact selects_funct ho hf
  | j ho | jal ho | beq ho | bne ho | addiu ho | andi ho | ori ho | lui ho | lw ho | sw ho =>
    exact selects_opcode ho

/-- HALT's row is for the zero word only. -/
theorem mem_tail_of_selects {w : Word} {r : OpcodeRow} (h0 : w ≠ 0) (hr : r ∈ opcodeTable)
    (hsel : r.selects w = true) : r ∈ opcodeTable.tail := by
  rcases List.mem_cons.1 hr with rfl | hr
  · exact absurd (selects_halt_iff.1 hsel) h0
  · exact hr

/-- The rows after HALT fix the opcode field to one of R57, and under opcode 0 the function code to one of
R58. -/
theorem rows_listed : ∀ r ∈ opcodeTable.tail,
    (fieldOp r.mask = BitVec.allOnes 6 ∧ fieldOp r.pattern ∈ listedOpcodes) ∧
      (fieldOp r.pattern = 0 → fieldFunct r.mask = BitVec.allOnes 6 ∧ fieldFunct r.pattern ∈ listedFuncts) := by
  decide

/-- A word that selects a row is accepted. -/
theorem exists_decodes_of_selects {w : Word} {r : OpcodeRow} (hr : r ∈ opcodeTable)
    (hsel : r.selects w = true) : ∃ i, Decodes w i := by
  by_cases h0 : w = 0
  · exact ⟨_, .halt h0⟩
  obtain ⟨⟨hmask, hop⟩, hfn⟩ := rows_listed r (mem_tail_of_selects h0 hr hsel)
  rw [OpcodeRow.selects, beq_iff_eq] at hsel
  have hopw : fieldOp w = fieldOp r.pattern := fieldOp_of_and_eq hmask hsel
  refine exists_decodes_of_listed h0 (hopw ▸ hop) fun hzero => ?_
  obtain ⟨hfmask, hf⟩ := hfn (hopw ▸ hzero)
  exact fieldFunct_of_and_eq hfmask hsel ▸ hf

/-- Two rows after HALT whose patterns agree under both masks are the same row. -/
theorem rows_compatible_eq : ∀ r ∈ opcodeTable.tail, ∀ r' ∈ opcodeTable.tail,
    r.pattern &&& r'.mask = r'.pattern &&& r.mask → r = r' := by decide

/-- No word selects two rows after HALT: the two patterns would agree under both masks. -/
theorem row_unique {w : Word} {r r' : OpcodeRow} (hr : r ∈ opcodeTable.tail) (hr' : r' ∈ opcodeTable.tail)
    (h : r.selects w = true) (h' : r'.selects w = true) : r = r' := by
  rw [OpcodeRow.selects, beq_iff_eq] at h h'
  refine rows_compatible_eq r hr r' hr' ?_
  rw [← h, ← h', BitVec.and_assoc, BitVec.and_assoc, BitVec.and_comm r.mask]

/-- A word is refused exactly when it selects no row. -/
theorem decode_error_iff_selectRow {w : Word} : (∃ e, decode w = .error e) ↔ selectRow w = none := by
  rw [decode_error_iff, selectRow, List.find?_eq_none]
  constructor
  · intro h r hr hsel
    obtain ⟨i, hi⟩ := exists_decodes_of_selects hr hsel
    exact h i hi
  · exact fun h i hi => h _ (rowOf_mem _) (selects_of_decodes hi)

/-- The row an accepted word selects is its instruction's: HALT's by priority, any other by uniqueness. -/
theorem selectRow_of_decodes {w : Word} {i : Instr} (h : Decodes w i) :
    selectRow w = some (rowOf i.mnemonic) := by
  by_cases h0 : w = 0
  · subst h0
    cases (decode_of_decodes h).symm.trans Machine.decode_zero
    rfl
  have hsel := selects_of_decodes h
  cases hrow : selectRow w with
  | none => exact absurd hsel (List.find?_eq_none.1 hrow _ (rowOf_mem _))
  | some r =>
    have hr : r ∈ opcodeTable := List.mem_of_find?_eq_some hrow
    have hrsel : r.selects w = true := List.find?_some (p := fun r : OpcodeRow => r.selects w) hrow
    rw [row_unique (mem_tail_of_selects h0 hr hrsel) (mem_tail_of_selects h0 (rowOf_mem _) hsel) hrsel hsel]

/-- The decoder accepts as SLL only a word that is not zero, so not all of its fields are 0 (R64). -/
theorem wellFormed_of_decodes {w : Word} {i : Instr} (h : Decodes w i) : i.wellFormed = true := by
  cases h with
  | sll h0 ho hf =>
    have hword := encode_of_decodes (.sll h0 ho hf)
    by_contra hwf
    simp only [Instr.wellFormed, Bool.not_eq_true, Bool.not_eq_false', Bool.and_eq_true, beq_iff_eq] at hwf
    obtain ⟨⟨⟨hrs, hrt⟩, hrd⟩, hsh⟩ := hwf
    rw [hrs, hrt, hrd, hsh] at hword
    exact h0 hword.symm
  | _ => rfl

/-- Settles O44: the guards of the decoder are the rows' selections, and rows are unique after HALT. -/
theorem decodeAgreesWithOpcodeTable : Obligations.DecodeAgreesWithOpcodeTable := by
  unfold Obligations.DecodeAgreesWithOpcodeTable
  intro w
  refine ⟨decode_error_iff_selectRow, fun i hi => ?_, fun r r' => row_unique⟩
  have hdec := decodes_of_decode hi
  exact ⟨wellFormed_of_decodes hdec, _, selectRow_of_decodes hdec, rowOf_mnemonic _⟩

end Sys2Proof
end

section
/-! PROOFS. What each halting step does (spec/44_halt_system.md R121, R123, spec/60_exceptions.md R151 to
R157). -/

namespace Sys2Proof.Machine

open Sys2Proof.Claims

/-- Settles O21: the decoder refuses such a word, so the record `IllegalInstruction` is true. -/
theorem illegalWordHalts : Obligations.IllegalWordHalts := by
  unfold Obligations.IllegalWordHalts
  intro s hc hs hv w h0 hun
  have herr : ∃ e, decode w = .error e := decode_error_iff_unlisted.2 ⟨h0, hun⟩
  exact ⟨_, step_of_recordTrue (h := .illegalInstruction s.pc w) hc hs ⟨rfl, hv, rfl, herr⟩,
    haltsWith_enterHalt ..⟩

/-- Settles O23: the record after the step is the one that is true of the state, and each clause is what
it means for a record to be true; a refused word is one that selects no row. -/
theorem haltCausesInStageOrder : Obligations.HaltCausesInStageOrder := by
  unfold Obligations.HaltCausesInStageOrder
  intro s t hs hn h
  refine ⟨?fetch, ?zero, ?illegal, fun ea => ?access, ?status⟩
  case fetch => exact (step_halt_eq_some_iff hs hn h).trans (and_iff_right rfl)
  case zero => exact (step_halt_eq_some_iff hs hn h).trans (and_iff_right rfl)
  case illegal =>
    rw [step_halt_eq_some_iff hs hn h, ← decode_error_iff_selectRow]
    exact ⟨fun ⟨_, hv, _, hd⟩ => ⟨hv, hd⟩, fun ⟨hv, hd⟩ => ⟨rfl, hv, rfl, hd⟩⟩
  case access => exact (step_halt_eq_some_iff hs hn h).trans (and_iff_right rfl)
  case status =>
    cases stepEnd_of_step hs h with
    | halts r hr => simp
    | completes i t hd hx hst hh => simp [hst, hh, hn]

/-- Settles O24: a step that halts is `enterHalt` with a true record, which names pc. -/
theorem haltingStepCommitsNothing : Obligations.HaltingStepCommitsNothing := by
  unfold Obligations.HaltingStepCommitsNothing
  intro s t hs h ht
  obtain ⟨r, hr, rfl⟩ := recordTrue_of_step_halted hs h ht
  exact ⟨r, haltsWith_enterHalt .., recordTrue_haltPc hr, rfl, rfl⟩

/-- The end of a run by the cause of its record (R123). -/
theorem endedNormally_enterHalt_iff (s : State) (r : HaltRecord) :
    (s.enterHalt r).endedNormally ↔ r.cause = .zeroWord := by
  cases r <;> simp [State.endedNormally, HaltRecord.cause]

theorem faulted_enterHalt_iff (s : State) (r : HaltRecord) :
    (s.enterHalt r).faulted ↔ r.cause ≠ .zeroWord := by
  simp [State.faulted]

/-- A true record has cause `ZeroWord` exactly when the word fetched is zero: a record of another cause
is of a bad fetch address or of a word that does not decode to HALT. -/
theorem recordTrue_cause_zeroWord_iff {s : State} {r : HaltRecord} (hr : s.RecordTrue r) :
    r.cause = .zeroWord ↔ fetchValid s.cfg s.pc ∧ s.memRead s.pc = 0 := by
  cases r with
  | zeroWord pc => exact iff_of_true rfl hr.2
  | illegalInstruction pc w =>
    obtain ⟨-, -, rfl, e, he⟩ := hr
    exact iff_of_false nofun fun ⟨_, hz⟩ => by rw [hz, decode_zero] at he; nomatch he
  | memoryAccess pc a =>
    obtain ⟨-, -, -, rs, rt, imm16, -, hd⟩ := hr
    exact iff_of_false nofun fun ⟨_, hz⟩ => by rw [hz, decode_zero] at hd; rcases hd with hd | hd <;> nomatch hd
  | fetchFault pc => exact iff_of_false nofun fun ⟨hv, _⟩ => hr.2 hv

/-- Settles O25: a step that halts latches a true record, and the end is named by its cause. -/
theorem runEndsNormallyExactlyOnZeroWord : Obligations.RunEndsNormallyExactlyOnZeroWord := by
  unfold Obligations.RunEndsNormallyExactlyOnZeroWord
  intro s t hs h ht
  obtain ⟨r, hr, rfl⟩ := recordTrue_of_step_halted hs h ht
  rw [endedNormally_enterHalt_iff, faulted_enterHalt_iff]
  exact ⟨recordTrue_cause_zeroWord_iff hr, Iff.rfl⟩

/-- However many steps are asked of a halted core, it answers itself (R144). -/
theorem run_halted {s : State} (hc : s.cfg.WF) (hs : s.status = .halted) (n : Nat) :
    core.run n s = .next s := by
  induction n with
  | zero => rfl
  | succ n ih => rw [run_succ_of_next n (step_halted hc hs), ih]

/-- Settles O26: a run of a halted core answers it, a load changes memory only, and reset runs. -/
theorem haltedIsTerminal : Obligations.HaltedIsTerminal := by
  unfold Obligations.HaltedIsTerminal
  refine ⟨fun s n hc hs => ⟨run_halted hc hs n, fun t ht => ?_⟩, fun s t program h => ?_, fun s => ⟨rfl, rfl⟩⟩
  · cases (run_halted hc hs n).symm.trans ht
    exact ⟨rfl, hs⟩
  · obtain ⟨-, rfl⟩ := load_eq_some h
    rfl

end Sys2Proof.Machine
end

section
/-! PROOFS. The step is total and runs the decoded instruction; what it may change, over one step and over
runs (spec/49_instruction_cycle.md R140 to R143, spec/10_state.md R22, spec/20_memory.md R32). -/

namespace Sys2Proof.Machine

/-- Settles O27: the step is the meaning of the decoded instruction. -/
theorem stepRunsDecodedInstruction : Obligations.StepRunsDecodedInstruction := by
  unfold Obligations.StepRunsDecodedInstruction
  exact fun s i => step_eq_exec

/-- Every meaning answers a next state: no arm faults or refuses. -/
theorem exec_total (i : Instr) (s : State) : ∃ t, exec i s = .next t := by
  cases i <;> exact ⟨_, rfl⟩

/-- Settles O28: a halted core answers itself, a running one takes the halt of fetch or decode, or runs
an instruction, which always answers. -/
theorem stepIsTotal : Obligations.StepIsTotal := by
  unfold Obligations.StepIsTotal
  refine fun s => ⟨fun hc => ?_, fun hc => if_neg hc⟩
  cases hs : s.status with
  | halted => exact ⟨s, step_halted hc hs⟩
  | running =>
    cases hf : s.fetchInstr with
    | error r => exact ⟨_, step_eq_enterHalt hc hs hf⟩
    | ok i => rw [step_eq_exec_of_fetch hc hs hf]; exact exec_total i s

/-- Settles O31: a completed step has one of the three effects that complete, and each reports its one
change. -/
theorem reportAccountsForEveryChange : Obligations.ReportAccountsForEveryChange := by
  unfold Obligations.ReportAccountsForEveryChange
  intro s t hs h ht
  cases stepEnd_of_step hs h with
  | halts r hr => nomatch ht
  | completes i t hd hx hst hh =>
    have hout : t.outcome = t.report.map .ok := by rw [State.outcome, ht]
    cases exec_effect hx with
    | zeroWord hi => nomatch ht
    | badAddress rs rt imm16 hi hbad => nomatch ht
    | writeBack dest val npc =>
      refine ⟨_, writeBack_report .., by rw [hout, writeBack_report]; rfl, (writeBack_pc ..).symm, .inr rfl,
        fun j hj => ?_, fun a _ => by rw [writeBack_mem], nofun⟩
      rw [readReg_writeBack, if_neg fun hjd => hj (congrArg some hjd.1.symm)]
    | transfer npc =>
      exact ⟨_, complete_report .., hout, rfl, .inl rfl, fun _ _ => rfl, fun _ _ => rfl, nofun⟩
    | store rs rt imm16 hi hv =>
      refine ⟨_, complete_report .., hout, rfl, .inl rfl, fun _ _ => rfl, fun a ha => ?_, fun a ha => ?_⟩
      · exact read_write_other _ _ (ha _ rfl)
      · cases ha; exact hv.2

/-- The one effect that changes a word is SW's store. -/
theorem Effect.store_of_read_ne {i : Instr} {s t : State} {a : Nat} (he : Effect i s t)
    (hne : t.mem.read a ≠ s.mem.read a) :
    ∃ rs rt imm16, i = .sw rs rt imm16 ∧ dataValid s.cfg (s.effectiveAddress rs imm16) ∧
      a = (s.effectiveAddress rs imm16).toNat ∧ t.mem.read a = s.readReg rt := by
  cases he with
  | writeBack dest val npc => rw [writeBack_mem] at hne; exact absurd rfl hne
  | transfer npc => exact absurd rfl hne
  | zeroWord hi => exact absurd rfl hne
  | badAddress rs rt imm16 hi hbad => exact absurd rfl hne
  | store rs rt imm16 hi hv =>
    rw [complete_mem, memWrite_mem] at hne ⊢
    have ha : a = (s.effectiveAddress rs imm16).toNat := by
      by_contra hother
      exact hne (read_write_other _ _ hother)
    exact ⟨rs, rt, imm16, hi, hv, ha, ha ▸ read_write_same ..⟩

/-- Settles O32: a step that changes a word ran an instruction whose effect is SW's store. -/
theorem onlyStoresChangeMemory : Obligations.OnlyStoresChangeMemory := by
  unfold Obligations.OnlyStoresChangeMemory
  intro s t a h hne
  obtain ⟨-, hcase⟩ := step_cases h
  cases hcase with
  | halted hs => exact absurd rfl hne
  | fetchFault hs hv => exact absurd rfl hne
  | illegal hs hv e hd => exact absurd rfl hne
  | run hs hv i hd t he =>
    obtain ⟨rs, rt, imm16, rfl, ⟨halign, hlow, hhigh⟩, rfl, hval⟩ := he.store_of_read_ne hne
    exact ⟨hs, hlow, hhigh, halign, rs, rt, imm16, hd, rfl, hval⟩

theorem Effect.cfg_eq {i : Instr} {s t : State} (he : Effect i s t) : t.cfg = s.cfg := by
  cases he with
  | writeBack dest val npc => exact writeBack_cfg ..
  | transfer npc => rfl
  | store rs rt imm16 hi hv => rfl
  | zeroWord hi => rfl
  | badAddress rs rt imm16 hi hbad => rfl

/-- No step changes the configuration (R23). -/
theorem step_cfg {s t : State} (h : step s = .next t) : t.cfg = s.cfg := by
  obtain ⟨-, hcase⟩ := step_cases h
  cases hcase with
  | halted hs => rfl
  | fetchFault hs hv => rfl
  | illegal hs hv e hd => rfl
  | run hs hv i hd t he => exact he.cfg_eq

/-- No step changes an address below the data region (R32). -/
theorem step_read_below_dbase {s t : State} {a : Nat} (h : step s = .next t) (ha : a < s.cfg.dbase) :
    t.mem.read a = s.mem.read a := by
  by_contra hne
  obtain ⟨-, hlow, -⟩ := onlyStoresChangeMemory s t a h hne
  omega

/-- Settles O33: by induction on the number of steps. -/
theorem instructionRegionConstantOverRuns : Obligations.InstructionRegionConstantOverRuns := by
  unfold Obligations.InstructionRegionConstantOverRuns
  intro n
  induction n with
  | zero => intro s t h; cases h; exact ⟨rfl, fun _ _ => rfl⟩
  | succ n ih =>
    intro s t h
    obtain ⟨u, hstep, hrun⟩ := run_succ_inv h
    obtain ⟨hcfg, hread⟩ := ih u t hrun
    rw [step_cfg hstep] at hcfg hread
    exact ⟨hcfg, fun a ha => (hread a ha).trans (step_read_below_dbase hstep ha)⟩

end Sys2Proof.Machine
end

section
/-! PROOFS. The read and write sets of R13 as non-interference (spec/10_state.md section 1). -/

namespace Sys2Proof.Machine

open Sys2Proof.Claims

/-- The state with other register contents. -/
def State.withRegs (s : State) (regs : Vector Word 32) : State := { s with regs := regs }

theorem eq_withRegs {s s' : State} (h : s'.cfg = s.cfg ∧ s'.pc = s.pc ∧ s'.mem = s.mem ∧
    s'.status = s.status ∧ s'.halt = s.halt ∧ s'.report = s.report) : s' = s.withRegs s'.regs := by
  cases s'
  obtain ⟨rfl, rfl, rfl, rfl, rfl, rfl⟩ := h
  rfl

/-- What two steps, from `s` and from `s` with other registers, must agree on when both write the register
`writes` or none. -/
structure StepsAgree (s t t' : State) (writes : Option RegIdx) : Prop where
  pc : t'.pc = t.pc
  mem : t'.mem = t.mem
  status : t'.status = t.status
  halt : t'.halt = t.halt
  report : t'.report = t.report
  frame : ∀ r, writes ≠ some r → t.readReg r = s.readReg r
  reported : t.status = .running → t.report.map (·.changedReg) = some writes
  written : ∀ r, writes = some r → Config.discards s.cfg r = false → t.status = .running →
    t'.readReg r = t.readReg r

section Agree

variable (s : State) (regs : Vector Word 32)

theorem stepsAgree_enterHalt (r : HaltRecord) (writes : Option RegIdx) :
    StepsAgree s (s.enterHalt r) ((s.withRegs regs).enterHalt r) writes :=
  ⟨rfl, rfl, rfl, rfl, rfl, fun _ _ => rfl, nofun, nofun⟩

theorem stepsAgree_transfer (npc : Word) :
    StepsAgree s (s.complete none none npc) ((s.withRegs regs).complete none none npc) none :=
  ⟨rfl, rfl, rfl, rfl, rfl, fun _ _ => rfl, fun _ => rfl, nofun⟩

theorem stepsAgree_store (a v npc : Word) :
    StepsAgree s ((s.memWrite a v).complete none (some a) npc)
      (((s.withRegs regs).memWrite a v).complete none (some a) npc) none :=
  ⟨rfl, rfl, rfl, rfl, rfl, fun _ _ => rfl, fun _ => rfl, nofun⟩

theorem stepsAgree_writeBack (dest : RegIdx) (val npc : Word) :
    StepsAgree s (s.writeBack dest val npc) ((s.withRegs regs).writeBack dest val npc) (some dest) where
  pc := by rw [writeBack_pc, writeBack_pc]
  mem := by rw [writeBack_mem, writeBack_mem]; rfl
  status := by rw [writeBack_status, writeBack_status]; rfl
  halt := by rw [writeBack_halt, writeBack_halt]; rfl
  report := by rw [writeBack_report, writeBack_report]
  frame r hr := by rw [readReg_writeBack, if_neg fun h => hr (congrArg some h.1.symm)]
  reported _ := by rw [writeBack_report]; rfl
  written r hr hd _ := by
    cases hr
    rw [readReg_writeBack_kept (s := s) hd, readReg_writeBack_kept (s := s.withRegs regs) hd]

/-- The address check reads the configuration and pc alone. -/
theorem stepsAgree_accessData {t t' : State} {writes : Option RegIdx} (ea : Word)
    (h : StepsAgree s t t' writes) :
    StepsAgree s (s.accessData ea t) ((s.withRegs regs).accessData ea t') writes := by
  by_cases hv : dataValid s.cfg ea
  · rwa [accessData_valid hv, accessData_valid (s := s.withRegs regs) hv]
  · rw [accessData_invalid hv, accessData_invalid (s := s.withRegs regs) hv]
    exact stepsAgree_enterHalt ..

end Agree

theorem forall_mem_pair {p : RegIdx → Prop} {a b : RegIdx} (h : ∀ r ∈ [a, b], p r) : p a ∧ p b :=
  ⟨h a (by simp), h b (by simp)⟩

/-- Each meaning depends on the registers of its read set alone, and writes its write set. -/
theorem exec_stepsAgree {i : Instr} {s t t' : State} {regs : Vector Word 32}
    (hreads : ∀ r ∈ readSet i, (s.withRegs regs).readReg r = s.readReg r)
    (h : exec i s = .next t) (h' : exec i (s.withRegs regs) = .next t') :
    StepsAgree s t t' (writeSet i) := by
  cases i with
  | halt => cases h; cases h'; exact stepsAgree_enterHalt ..
  | addu rs rt rd sh | subu rs rt rd sh | and rs rt rd sh | or rs rt rd sh | slt rs rt rd sh =>
    obtain ⟨hrs, hrt⟩ := forall_mem_pair hreads
    simp only [exec_addu, exec_subu, exec_and, exec_or, exec_slt, hrs, hrt] at h'
    cases h; cases h'; exact stepsAgree_writeBack ..
  | sll rs rt rd sh | srl rs rt rd sh =>
    simp only [exec_sll, exec_srl, List.forall_mem_singleton.1 hreads] at h'
    cases h; cases h'; exact stepsAgree_writeBack ..
  | addiu rs rt imm16 | andi rs rt imm16 | ori rs rt imm16 =>
    simp only [exec_addiu, exec_andi, exec_ori, List.forall_mem_singleton.1 hreads] at h'
    cases h; cases h'; exact stepsAgree_writeBack ..
  | lui rs rt imm16 | jal target26 => cases h; cases h'; exact stepsAgree_writeBack ..
  | j target26 => cases h; cases h'; exact stepsAgree_transfer ..
  | jr rs rt rd sh =>
    rw [exec_jr, List.forall_mem_singleton.1 hreads] at h'
    cases h; cases h'; exact stepsAgree_transfer ..
  | beq rs rt imm16 | bne rs rt imm16 =>
    obtain ⟨hrs, hrt⟩ := forall_mem_pair hreads
    simp only [exec_beq, exec_bne, hrs, hrt] at h'
    cases h; cases h'; exact stepsAgree_transfer ..
  | lw rs rt imm16 =>
    rw [exec_lw, State.effectiveAddress, List.forall_mem_singleton.1 hreads] at h'
    cases h; cases h'; exact stepsAgree_accessData _ _ _ (stepsAgree_writeBack ..)
  | sw rs rt imm16 =>
    obtain ⟨hrs, hrt⟩ := forall_mem_pair hreads
    rw [exec_sw, State.effectiveAddress, hrs, hrt] at h'
    cases h; cases h'; exact stepsAgree_accessData _ _ _ (stepsAgree_store ..)

/-- Inversion of fetch and decode. -/
theorem decode_of_fetchInstr {s : State} {i : Instr} (hf : s.fetchInstr = .ok i) :
    decode (s.memRead s.pc) = .ok i := by
  by_cases hv : fetchValid s.cfg s.pc
  · cases hd : decode (s.memRead s.pc) with
    | ok j => rw [fetchInstr_ok hv hd] at hf; cases hf; rfl
    | error e => rw [fetchInstr_illegal hv hd] at hf; nomatch hf
  · rw [fetchInstr_invalid hv] at hf; nomatch hf

/-- Settles O30: fetch and decode read no register, so both steps halt alike or run the same instruction. -/
theorem registerReadAndWriteSets : Obligations.RegisterReadAndWriteSets := by
  unfold Obligations.RegisterReadAndWriteSets
  intro s s' t t' reads writes hs hsets hsame hreads h h'
  have hc : s.cfg.WF := (step_cases h).1
  rw [eq_withRegs hsame] at h' hreads
  have hagree : StepsAgree s t t' writes := by
    cases hf : s.fetchInstr with
    | error r =>
      cases (step_eq_enterHalt hc hs hf).symm.trans h
      cases (step_eq_enterHalt (s := s.withRegs s'.regs) hc hs hf).symm.trans h'
      exact stepsAgree_enterHalt ..
    | ok i =>
      rw [step_eq_exec_of_fetch hc hs hf] at h
      rw [step_eq_exec_of_fetch (s := s.withRegs s'.regs) hc hs hf] at h'
      rcases hsets with ⟨j, hd, rfl, rfl⟩ | ⟨⟨e, he⟩, -, -⟩
      · cases (decode_of_fetchInstr hf).symm.trans hd
        exact exec_stepsAgree hreads h h'
      · nomatch (decode_of_fetchInstr hf).symm.trans he
  exact ⟨hagree.pc, hagree.mem, hagree.status, hagree.halt, hagree.report, hagree.frame, hagree.reported,
    hagree.written⟩

end Sys2Proof.Machine
end

section
/-! PROOFS. The per-instruction meanings against the instruction cycle read stage by stage
(spec/49_instruction_cycle.md R131 to R140). -/

namespace Sys2Proof.Machine

/-- The staged logical immediate, taken from the decoded one, is the policy's (R92, R93). -/
theorem stageLogicalImmediate_sext32 (c : Config) (imm16 : Imm16) :
    stageLogicalImmediate c (sext32 imm16) = logicalImmediate c imm16 := by
  rw [stageLogicalImmediate, logicalImmediate]
  cases c.logImmExt with
  | sign => rfl
  | zero =>
    show sext32 imm16 &&& 0x0000FFFF = zext32 imm16
    ext k hk
    simp only [sext32, zext32]
    interval_cases k <;> simp [BitVec.getElem_signExtend]

/-- The opcodes of the immediate format and of the jump format (R53, R54, R57). -/
abbrev immediateOpcodes : List (BitVec 6) := [0x09, 0x0C, 0x0D, 0x0F, 0x04, 0x05, 0x23, 0x2B]
abbrev jumpOpcodes : List (BitVec 6) := [0x02, 0x03]

section Stages

variable {s : State} (hv : fetchValid s.cfg s.pc)
include hv

/-- The staged step of a word that Decode halts on. -/
theorem stagedStep_of_error {r : HaltRecord} (h : stageDecode s (s.memRead s.pc) = .error r) :
    stagedStep s = s.enterHalt r := by
  rw [stagedStep, if_pos hv, h]

/-- The staged step of a word that Decode accepts. -/
theorem stagedStep_of_ok {d : Decoded} (h : stageDecode s (s.memRead s.pc) = .ok d) :
    stagedStep s = stageCommit s d := by
  rw [stagedStep, if_pos hv, h]

/-- The staged step of a register-format word. -/
theorem stagedStep_register {fn : BitVec 6} (h0 : s.memRead s.pc ≠ 0)
    (ho : fieldOp (s.memRead s.pc) = opRegister) (hf : fieldFunct (s.memRead s.pc) = fn)
    (hfn : fn ∈ listedFuncts) :
    stagedStep s = stageCommit s (.register (fieldRs (s.memRead s.pc)) (fieldRt (s.memRead s.pc))
      (fieldRd (s.memRead s.pc)) (fieldShamt (s.memRead s.pc)) fn (s.readReg (fieldRs (s.memRead s.pc)))
      (s.readReg (fieldRt (s.memRead s.pc)))) := by
  refine stagedStep_of_ok hv ?_
  simp only [stageDecode, if_neg h0, ho, hf]
  exact if_pos hfn

/-- The staged step of an immediate-format word. -/
theorem stagedStep_immediate {op : BitVec 6} (ho : fieldOp (s.memRead s.pc) = op)
    (hop : op ∈ immediateOpcodes) :
    stagedStep s = stageCommit s (.immediate op (fieldRs (s.memRead s.pc)) (fieldRt (s.memRead s.pc))
      (sext32 (fieldImm16 (s.memRead s.pc))) (s.readReg (fieldRs (s.memRead s.pc)))
      (s.readReg (fieldRt (s.memRead s.pc)))) := by
  have hop0 : op ≠ 0 := by rintro rfl; simp at hop
  refine stagedStep_of_ok hv ?_
  simp only [stageDecode, if_neg (ne_zero_of_fieldOp (ho ▸ hop0)), ho, if_neg hop0, if_pos hop]

/-- The staged step of a jump-format word. -/
theorem stagedStep_jump {op : BitVec 6} (ho : fieldOp (s.memRead s.pc) = op) (hop : op ∈ jumpOpcodes) :
    stagedStep s = stageCommit s (.jump op (jumpTarget s.pc (fieldTarget26 (s.memRead s.pc)))) := by
  have hop0 : op ≠ 0 := by rintro rfl; simp at hop
  have hopi : op ∉ immediateOpcodes := by
    rcases List.mem_pair.1 hop with rfl | rfl <;> decide
  refine stagedStep_of_ok hv ?_
  simp only [stageDecode, if_neg (ne_zero_of_fieldOp (ho ▸ hop0)), ho, if_neg hop0, if_neg hopi, if_pos hop]
  rfl

/-- The staged Decode refuses what the decoder refuses, with the same record (R65, R66). -/
theorem stagedStep_illegal {e : DecodeReject} (hd : decode (s.memRead s.pc) = .error e) :
    stagedStep s = s.enterHalt (.illegalInstruction s.pc (s.memRead s.pc)) := by
  obtain ⟨h0, hun⟩ := decode_error_iff_unlisted.1 ⟨e, hd⟩
  refine stagedStep_of_error hv ?_
  simp only [stageDecode, if_neg h0]
  rcases hun with ⟨ho, hf⟩ | ho
  · rw [if_pos ho, if_neg hf]
  · rw [if_neg, if_neg, if_neg]
    all_goals
      intro h
      exact ho (by simp only [List.mem_cons] at h ⊢; tauto)

/-- The staged cycle is the meaning of the decoded instruction. -/
theorem exec_eq_stagedStep {i : Instr} (h : Decodes (s.memRead s.pc) i) : exec i s = .next (stagedStep s) := by
  cases h with
  | halt h0 => rw [stagedStep_of_error hv (if_pos h0)]; rfl
  | sll h0 ho hf | srl h0 ho hf | jr h0 ho hf | addu h0 ho hf | subu h0 ho hf | and h0 ho hf | or h0 ho hf
  | slt h0 ho hf => rw [stagedStep_register hv h0 ho hf (by decide)]; rfl
  | addiu ho | lui ho | lw ho | sw ho => rw [stagedStep_immediate hv ho (by decide)]; rfl
  | andi ho | ori ho =>
    rw [stagedStep_immediate hv ho (by decide)]
    simp only [exec_andi, exec_ori, ← stageLogicalImmediate_sext32]; rfl
  | beq ho =>
    rw [stagedStep_immediate hv ho (by decide)]
    simp only [exec_beq, differenceIsZero, difference, beq_iff_eq]; rfl
  | bne ho =>
    rw [stagedStep_immediate hv ho (by decide)]
    simp only [exec_bne, differenceIsZero, difference, Bool.not_eq_true', beq_eq_false_iff_ne]; rfl
  | j ho | jal ho => rw [stagedStep_jump hv ho (by decide)]; rfl

end Stages

/-- Settles O34: a bad fetch and an illegal word halt alike in both accounts, and an accepted word runs the
same meaning. -/
theorem stepIsTheStagedCycle : Obligations.StepIsTheStagedCycle := by
  unfold Obligations.StepIsTheStagedCycle
  intro s hc hs
  by_cases hv : fetchValid s.cfg s.pc
  · cases hd : decode (s.memRead s.pc) with
    | error e => rw [step_eq_enterHalt hc hs (fetchInstr_illegal hv hd), stagedStep_illegal hv hd]
    | ok i => rw [step_eq_exec hc hs hv hd, exec_eq_stagedStep hv (decodes_of_decode hd)]
  · rw [step_eq_enterHalt hc hs (fetchInstr_invalid hv), stagedStep, if_neg hv]

end Sys2Proof.Machine
end

section
/-! PROOFS. Reset, load and launch (spec/10_state.md R25, spec/70_reset_and_hazards.md R180 to R184). -/

namespace Sys2Proof.Machine

theorem ibase_lt {c : Config} (hc : c.WF) : c.ibase < 2 ^ 32 := by
  have : c.memend = c.ibase + c.isize + c.dsize := rfl
  obtain ⟨-, -, -, -, -, hend⟩ := hc
  omega

/-- The reset pc is the base of the instruction region as a number, since that lies below `2^32` (D11). -/
theorem resetWith_pc_toNat {c : Config} (hc : c.WF) : (State.resetWith c).pc.toNat = c.ibase := by
  rw [resetWith_pc, BitVec.toNat_ofNat, Nat.mod_eq_of_lt (ibase_lt hc)]

/-- Register 29 is the one register reset may seed (R25, D12). -/
theorem resetWith_readReg_other (c : Config) {r : RegIdx} (hr : r ≠ 29) : (State.resetWith c).readReg r = 0 := by
  rw [resetWith_readReg, if_neg fun h => hr h.1]

/-- Settles O35: field by field. -/
theorem resetValues : Obligations.ResetValues := by
  unfold Obligations.ResetValues
  intro c hc s
  refine ⟨rfl, resetWith_pc_toNat hc, fun hseed => ?seeded, fun hseed => ?unseeded,
    fun r => resetWith_readReg_other c, fun _ => rfl, rfl, rfl, fun t ht => congrArg State.resetWith ht⟩
  case seeded =>
    obtain ⟨-, -, -, -, -, hend⟩ := hc
    rw [resetWith_readReg, if_pos ⟨rfl, hseed⟩, BitVec.toNat_ofNat, Nat.mod_eq_of_lt hend]
  case unseeded => rw [resetWith_readReg, if_neg (by simp [hseed])]

/-- The reset state has the invariant: memory is empty, and register 0 is never the seeded one. -/
theorem inv_resetWith {c : Config} (hc : c.WF) : (State.resetWith c).Inv where
  configuration := hc
  canonical := wf_resetWith c
  inImage := nofun
  hardwired _ := resetWith_readReg_other c (by decide)
  status := statusTrue_of_running rfl rfl
  report := nofun

/-- Settles O36: `CFG0` obeys R6. -/
theorem resetEstablishesInvariant : Obligations.ResetEstablishesInvariant := by
  unfold Obligations.ResetEstablishesInvariant
  exact ⟨inv_resetWith (by decide), fun c => inv_resetWith⟩

/-- The loader's words stay in the image when the last one does. -/
theorem inImage_storeWords {c : Config} {m : Memory} {a : Nat} {ws : List Word} (hm : m.InImage c)
    (halign : a % 4 = 0) (hlow : c.ibase ≤ a) (hhigh : a + 4 * ws.length ≤ c.memend) :
    (m.storeWords a ws).InImage c := by
  induction ws generalizing m a with
  | nil => exact hm
  | cons w rest ih =>
    rw [List.length_cons] at hhigh
    exact ih (inImage_write hm w ⟨halign, hlow, by omega⟩) (by omega) (by omega) (by omega)

/-- A load into a running core keeps the invariant: the words of a program that fits lie in the image. -/
theorem inv_load {s t : State} {program : List Word} (h : s.Inv) (hs : s.status = .running)
    (hload : s.load program = some t) : t.Inv := by
  obtain ⟨hfit, rfl⟩ := load_eq_some hload
  obtain ⟨hbase, -⟩ := h.configuration
  have : s.cfg.memend = s.cfg.ibase + s.cfg.isize + s.cfg.dsize := rfl
  exact inv_withMem h hs (wf_storeWords h.canonical _ _)
    (inImage_storeWords h.inImage hbase (Nat.le_refl _) (by omega))

/-- Settles O39: a launch state is a load into the reset state. -/
theorem loadKeepsInvariant : Obligations.LoadKeepsInvariant := by
  unfold Obligations.LoadKeepsInvariant
  exact ⟨fun s t program => inv_load, fun c program s hc => inv_load (inv_resetWith hc) rfl⟩

/-- The entry point can be fetched from: the instruction region is not empty (R6, D11). -/
theorem fetchValid_resetWith {c : Config} (hc : c.WF) : fetchValid c (State.resetWith c).pc := by
  have : c.dbase = c.ibase + c.isize := rfl
  rw [fetchValid, resetWith_pc_toNat hc]
  obtain ⟨hbase, -, -, hsize, -⟩ := hc
  omega

/-- A launch changes nothing but memory from the reset state (R182, R184). -/
theorem launch_frame {c : Config} {s : State} {program : List Word} (h : launch c program = some s) :
    s.cfg = c ∧ s.pc = (State.resetWith c).pc ∧ s.status = .running := by
  obtain ⟨-, rfl⟩ := load_eq_some h
  exact ⟨rfl, rfl, rfl⟩

/-- The launch state of a program holds its first word at the entry point (R182, R184). -/
theorem launch_memRead_pc {c : Config} {s : State} {w : Word} {rest : List Word} (hc : c.WF)
    (h : launch c (w :: rest) = some s) : s.memRead s.pc = w := by
  obtain ⟨-, rfl⟩ := load_eq_some h
  show Memory.read (Memory.storeWords [] c.ibase (w :: rest)) (State.resetWith c).pc.toNat = w
  rw [resetWith_pc_toNat hc]
  exact read_storeWords_word [] c.ibase (w :: rest) (Nat.zero_lt_succ rest.length)

/-- Settles O40: the launch state holds the first word at a valid pc; right after reset that word is zero,
so the record `ZeroWord` is true. -/
theorem firstStepRunsFirstWord : Obligations.FirstStepRunsFirstWord := by
  unfold Obligations.FirstStepRunsFirstWord
  intro c s w rest hc h
  have hword := launch_memRead_pc hc h
  obtain ⟨hcfg, hpc, hs⟩ := launch_frame h
  have hv := fetchValid_resetWith hc
  have hhalt : step (State.resetWith c) = _ :=
    step_of_recordTrue (h := .zeroWord (State.resetWith c).pc) hc rfl ⟨rfl, hv, rfl⟩
  refine ⟨hpc ▸ resetWith_pc_toNat hc, hword, fun i hi => ?_, _, hhalt, rfl⟩
  exact step_eq_exec (hcfg ▸ hc) hs (hcfg ▸ hpc ▸ hv) (hword ▸ hi)

/-- At a valid pc a 32-bit word is placed as it is, by a store (log 16). -/
theorem withFetchWord_eq_memWrite {s : State} (hv : fetchValid s.cfg s.pc) (w : Word) :
    s.withFetchWord 32 w.toNat = s.memWrite s.pc w := by
  rw [State.withFetchWord, State.placeFetchWord, if_pos hv, Nat.mod_eq_of_lt w.isLt, BitVec.ofNat_toNat,
    BitVec.setWidth_eq]

/-- Settles O41: the placed word is the one fetched, and it decodes to its instruction. -/
theorem placedWordRunsNext : Obligations.PlacedWordRunsNext := by
  unfold Obligations.PlacedWordRunsNext
  intro s i hc hs hv hwf
  rw [withFetchWord_eq_memWrite hv]
  have hd : decode ((s.memWrite s.pc (encode i)).memRead s.pc) = .ok i := by
    rw [memRead_memWrite_same, decodeOfEncode i hwf]
  exact ⟨step_eq_exec (s := s.memWrite s.pc (encode i)) hc hs hv hd, memWrite_readReg s _ _,
    fun a ha => read_write_other _ _ ha⟩

/-- Settles O45: nine fixed words, each decoded by computation. -/
theorem wordsOfTheManualDecode : Obligations.WordsOfTheManualDecode := by
  unfold Obligations.WordsOfTheManualDecode
  exact ⟨rfl, rfl, rfl, rfl, rfl, rfl, rfl, rfl, rfl⟩

end Sys2Proof.Machine
end
